-- ==== Sys2Proof/Word.lean ====
section
/-! DEFINITION. The word types of FPCORE: 32-bit registers and bus words (R21), 16-bit narrow values (R3),
and the bytes of the frame buffers (R49). -/

namespace Sys2Proof

/-- A 32-bit register or bus word (R21). -/
abbrev Word := BitVec 32

/-- A 16-bit narrow value: every stored fixed-point value, DELAY and WCNT (R3, R31, R32). -/
abbrev Half := BitVec 16

/-- One byte of a frame buffer, or an 8-bit field of a register (R37, R30). -/
abbrev Byte := BitVec 8

end Sys2Proof
end

