-- ==== Sys2Proof/Syntax.lean ====
section
/-! DEFINITION. The 14 commands of FPCORE, one constructor for each row of the opcode table (R61). A command word
holds no register number and no immediate (R60), so no constructor has an argument: the operands are registers. -/

namespace Sys2Proof

/-- The commands (R61). -/
inductive Instr where
  | nop
  | scaleup
  | scaledn
  | mul
  | div
  | sin
  | cos
  | sqrt
  | dist
  | fbegin
  | plot
  | fcommit
  | rstart
  | rnext
  deriving DecidableEq, Repr

end Sys2Proof
end

