-- ==== Sys2Proof/WellFormed.lean ====
section
/-! DEFINITION. Which commands and command words are well formed (R60 to R63). -/

namespace Sys2Proof

/-- R60: the RSVD field, bits 31:8 of a command word, must be 0. -/
def reservedClear (w : Word) : Bool := decide (w.extractLsb' 8 24 = 0#24)

/-- R61, R63: the OPCODE field, bits 7:0, is one of the 14 assigned values. -/
def opcodeAssigned (w : Word) : Bool :=
  [0x00#8, 0x01#8, 0x02#8, 0x03#8, 0x04#8, 0x05#8, 0x06#8, 0x07#8, 0x08#8,
   0x10#8, 0x11#8, 0x12#8, 0x20#8, 0x21#8].contains (w.extractLsb' 0 8)

/-- A legal command word (R69): mask and match of the opcode table, stated by field. -/
def commandWordWellFormed (w : Word) : Bool := reservedClear w && opcodeAssigned w

/-- Every command is well formed: it has no field that could be out of range (R60). -/
def Instr.wellFormed : Instr → Bool
  | .nop | .scaleup | .scaledn | .mul | .div | .sin | .cos | .sqrt | .dist => true
  | .fbegin | .plot | .fcommit | .rstart | .rnext => true

end Sys2Proof
end

