-- ==== Sys2Proof/Decode.lean ====
section
/-! DEFINITION. Decoding a command word, total over all 32-bit words (R69), and encoding a command (R61). Both are
written from the opcode map of R61. The decoding of a word never depends on state (R66). -/

namespace Sys2Proof

/-- Why a word is no command. Both raise E_ILL with ERRINFO.OPCODE = w[7:0] (R62, R63).
DESIGN CHOICE, log entry 17. -/
inductive DecodeError where
  /-- Some bit of 31:8 is set, whatever the OPCODE (R62). -/
  | reservedBits (opcode : Byte)
  /-- Bits 31:8 are 0 and the OPCODE is not assigned (R63). -/
  | unassignedOpcode (opcode : Byte)
  deriving DecidableEq, Repr

/-- The OPCODE field of a word (R60). -/
def opcodeField (w : Word) : Byte := w.extractLsb' 0 8

/-- The RSVD field of a word (R60). -/
def reservedField (w : Word) : BitVec 24 := w.extractLsb' 8 24

/-- The command an assigned OPCODE selects (R61), none for an unassigned one (R63). -/
def instrOfOpcode (b : Byte) : Option Instr :=
  match b.toNat with
  | 0x00 => some .nop
  | 0x01 => some .scaleup
  | 0x02 => some .scaledn
  | 0x03 => some .mul
  | 0x04 => some .div
  | 0x05 => some .sin
  | 0x06 => some .cos
  | 0x07 => some .sqrt
  | 0x08 => some .dist
  | 0x10 => some .fbegin
  | 0x11 => some .plot
  | 0x12 => some .fcommit
  | 0x20 => some .rstart
  | 0x21 => some .rnext
  | _ => none

/-- The decoder (R69). -/
def decode (w : Word) : Except DecodeError Instr :=
  if reservedField w = 0#24 then
    match instrOfOpcode (opcodeField w) with
    | some i => .ok i
    | none => .error (.unassignedOpcode (opcodeField w))
  else .error (.reservedBits (opcodeField w))

/-- The OPCODE value of a command (R61). -/
def Instr.opcode : Instr → Byte
  | .nop => 0x00#8
  | .scaleup => 0x01#8
  | .scaledn => 0x02#8
  | .mul => 0x03#8
  | .div => 0x04#8
  | .sin => 0x05#8
  | .cos => 0x06#8
  | .sqrt => 0x07#8
  | .dist => 0x08#8
  | .fbegin => 0x10#8
  | .plot => 0x11#8
  | .fcommit => 0x12#8
  | .rstart => 0x20#8
  | .rnext => 0x21#8

/-- The command word of a command (R60): RSVD = 0 above its OPCODE. -/
def encode (i : Instr) : Word := 0#24 ++ i.opcode

/-- The instruction the decoder reads from an instruction of nbits bits that are w. Every command is one 32-bit
word (R66): bits above nbits are 0, and a number with a bit above 31 is no command word. -/
def decodeTableWord (nbits w : Nat) : Option Instr :=
  if w % 2 ^ nbits < 2 ^ 32 then
    match decode (BitVec.ofNat 32 (w % 2 ^ nbits)) with
    | .ok i => some i
    | .error _ => none
  else none

end Sys2Proof
end

