-- ==== Sys2Proof/Config.lean ====
section
/-! DEFINITION. What a build of FPCORE fixes (R2 to R15), the checks that make a set of parameters a build at
all (R6, R7, R11, R14, R15), and the OPEN values of the platform as constants without a body. -/

namespace Sys2Proof

/-- The two precision policies (R2). -/
inductive Prec where
  | low
  | normal
  deriving DecidableEq, Repr

/-- FIX, the fixed-point scale (R4): 32 for LOW, 256 for NORMAL. -/
def Prec.fix : Prec → Nat
  | .low => 32
  | .normal => 256

/-- The build parameters, as plain data. Each is OPEN in the spec, so nothing here gives one a value but
PIXEL_MASK, whose default the spec states (R14). -/
structure Params where
  /-- PREC (R2). -/
  prec : Prec
  /-- NUM_ROWS, NUM_COLS, LINEBYTES and NUMPLANES (R6). -/
  numRows : Nat
  numCols : Nat
  lineBytes : Nat
  numPlanes : Nat
  /-- DOUBLE_BUFFER (R8): true for ON. -/
  doubleBuffer : Bool
  /-- SIN_TABLE, the contents of the sine ROM (R11, R39). -/
  sinTable : Vector Nat 50
  /-- PIXEL_MASK, bit position to byte mask (R14). -/
  pixelMask : Vector Byte 8 := #v[0x01#8, 0x02#8, 0x04#8, 0x08#8, 0x10#8, 0x20#8, 0x40#8, 0x80#8]
  /-- BASE, the bus address of the register window (R15, R45). -/
  base : Nat
  /-- LIVE_BASE, the platform address of a linear LIVE buffer (R48, R130). -/
  liveBase : Nat
  deriving DecidableEq, Repr

/-- R6: each of the four sizes is 1 to 255. -/
def Params.sizesOk (p : Params) : Bool :=
  [p.numRows, p.numCols, p.lineBytes, p.numPlanes].all fun n => decide (1 ≤ n) && decide (n ≤ 255)

/-- R6: every column has a bit in a row's bytes. -/
def Params.columnsOk (p : Params) : Bool := decide (p.numCols ≤ 8 * p.lineBytes)

/-- R7: LOW precision is refused above 16 rows or 16 columns. -/
def Params.lowOk (p : Params) : Bool :=
  match p.prec with
  | .low => decide (p.numRows ≤ 16) && decide (p.numCols ≤ 16)
  | .normal => true

/-- R11: every sine table entry lies in [0, FIX]. -/
def Params.sinTableOk (p : Params) : Bool := p.sinTable.toList.all fun v => decide (v ≤ p.prec.fix)

/-- The eight bytes with exactly one bit set (R14). -/
def oneBitBytes : List Byte := [0x01#8, 0x02#8, 0x04#8, 0x08#8, 0x10#8, 0x20#8, 0x40#8, 0x80#8]

/-- R14: each mask has exactly one bit set, and the eight are distinct. -/
def Params.pixelMaskOk (p : Params) : Bool :=
  (p.pixelMask.toList.all fun m => oneBitBytes.contains m) && decide p.pixelMask.toList.Nodup

/-- R15: BASE is 64-byte aligned. -/
def Params.baseOk (p : Params) : Bool := decide (p.base % 64 = 0)

/-- R130: LIVE lies at platform addresses outside the register window. A linear LIVE is the bytes from LIVE_BASE on
(R48), as many as the buffer has (R37). DEDUCED, log entry 22. -/
def Params.liveOk (p : Params) : Bool :=
  decide (p.liveBase + p.numPlanes * p.numRows * p.lineBytes ≤ p.base) || decide (p.base + 0x40 ≤ p.liveBase)

/-- All the constraints the spec puts on a build. Parameters that break one have no FPCORE (R7, D37, D41, D48). -/
def Params.legal (p : Params) : Bool :=
  p.sizesOk && p.columnsOk && p.lowOk && p.sinTableOk && p.pixelMaskOk && p.baseOk && p.liveOk

/-- A build: legal parameters. The refusal of R7 is this type: a configuration that breaks a constraint has no
value here, so the model has no machine for it. DESIGN CHOICE, log entry 1. -/
structure Build extends Params where
  legal : toParams.legal = true
  deriving DecidableEq, Repr

/-- Parameters that show a legal build exists. Only the next theorem and `Platform` use them, and
`Config.platform` does not unfold to them. -/
def Params.smallest : Params :=
  { prec := .normal, numRows := 1, numCols := 1, lineBytes := 1, numPlanes := 1, doubleBuffer := true,
    sinTable := Vector.replicate 50 0, base := 0, liveBase := 0x40 }

theorem Params.smallest_legal : Params.smallest.legal = true := by decide

/-- What the platform around one FPCORE fixes. The default of `build` lets Lean see that the type has a member,
which a constant without a body needs, and nothing else uses it. -/
structure Platform where
  /-- The build parameters of R2 to R15. -/
  build : Build := { toParams := Params.smallest, legal := Params.smallest_legal }
  /-- LIVE_INIT: what each byte of LIVE holds at FPCORE's reset (R38), by its place in the buffer. -/
  liveInit : Nat → Byte
  /-- LATENCY(opcode), in clock cycles (R148). It is a function of the opcode alone, which is the rule's
  'independent of the operand values'. No other definition reads it: the model is untimed. -/
  latency : Byte → Nat
  deriving Inhabited

/-- The platform the machine after reset stands on: a constant without a body, so a claim about it holds for
every legal build, every LIVE_INIT and every LATENCY. -/
opaque Config.platform : Platform

/-- The OPEN build of the machine after reset. -/
def Config.build : Build := Config.platform.build

/-- The OPEN parameter LIVE_INIT (R38). DEDUCED, log entry 2. -/
def Config.liveInit : Nat → Byte := Config.platform.liveInit

/-- The OPEN parameter LATENCY (R148). -/
def Config.latency : Byte → Nat := Config.platform.latency

end Sys2Proof
end

