-- ==== Sys2Proof/Machine/Memory.lean ====
section
/-! DEFINITION. A frame buffer as plain data: the bytes that are not 0, by place in the buffer, in rising order.
The place of byte (plane, row, byte) is the linear order of R48, counted from 0. DESIGN CHOICE, log entry 8. -/

namespace Sys2Proof

/-- A frame buffer, OFF or LIVE (R37, R38). A place that is not listed reads as 0, the reset value of OFF (R43). -/
abbrev Memory := List Host.Cell

/-- The canonical form: places strictly rising, and no entry equal to what an unlisted place reads as. -/
abbrev Memory.wf (m : Memory) : Prop := m.Pairwise (fun c d => c.1 < d.1) ∧ ∀ c ∈ m, c.2 ≠ 0#8

/-- Every listed place lies below n. -/
abbrev Memory.within (n : Nat) (m : Memory) : Prop := ∀ c ∈ m, c.1 < n

namespace Machine

/-- Read one byte. -/
def readByte : Memory → Nat → Byte
  | [], _ => 0#8
  | (k, v) :: rest, a => if k = a then v else readByte rest a

/-- A cell in front of a buffer, left out when it holds 0. -/
def consCell (a : Nat) (v : Byte) (m : Memory) : Memory := if v = 0#8 then m else (a, v) :: m

/-- Write one byte, keeping the canonical form. -/
def writeByte : Memory → Nat → Byte → Memory
  | [], a, v => consCell a v []
  | (k, w) :: rest, a, v =>
    if a < k then consCell a v ((k, w) :: rest)
    else if a = k then consCell a v rest
    else (k, w) :: writeByte rest a v

/-- Write 0 to every place below n. -/
def clearBelow (n : Nat) (m : Memory) : Memory := m.filter fun c => decide (n ≤ c.1)

/-- Copy every place below n from src to dst. -/
def copyBelow (n : Nat) (src dst : Memory) : Memory :=
  (src.filter fun c => decide (c.1 < n)) ++ dst.filter fun c => decide (n ≤ c.1)

/-- The buffer whose first n places, from place a on, hold f. -/
def tabulateFrom (f : Nat → Byte) : Nat → Nat → Memory
  | _, 0 => []
  | a, n + 1 => consCell a (f a) (tabulateFrom f (a + 1) n)

/-- The number of bytes of a frame buffer (R37). -/
def bufferSize (g : Params) : Nat := g.numPlanes * g.numRows * g.lineBytes

/-- The place of byte (p, r, b): the linear order plane, row, byte of R48, with planes numbered from 1. -/
def cellIndex (g : Params) (p r b : Nat) : Nat := ((p - 1) * g.numRows + r) * g.lineBytes + b

/-- The platform address of a byte of LIVE where the platform lays LIVE out linearly (R48). -/
def liveAddress (g : Params) (p r b : Nat) : Nat := g.liveBase + cellIndex g p r b

/-- The triples that name a byte of a frame buffer (R45). -/
def cellExists (g : Params) (p r b : Nat) : Bool :=
  decide (1 ≤ p) && decide (p ≤ g.numPlanes) && decide (r < g.numRows) && decide (b < g.lineBytes)

end Machine

end Sys2Proof
end

