-- ==== Sys2Proof/Machine/State.lean ====
section
/-! DEFINITION. The state of FPCORE and of the agents around it (R20 to R43), the two reasons a step can stop, and
the state after reset (R43). -/

namespace Sys2Proof.Machine

/-- The error causes of R121. -/
inductive ErrorCode where
  | ill
  | dz
  | ov
  | coord
  | lvl
  | td0
  | seq
  | bus
  deriving DecidableEq, Repr

/-- The sixteen registers of the host window (R21). -/
inductive Reg where
  | cmd
  | status
  | opa
  | opb
  | opc
  | opd
  | res
  | t
  | tstop
  | tdelta
  | delay
  | wcnt
  | commits
  | errinfo
  | config0
  | config1
  deriving DecidableEq, Repr

/-- The width of a bus access (R46). -/
inductive Width where
  | byte
  | half
  | word
  deriving DecidableEq, Repr

/-- One access of the host to the register window, at a byte offset from BASE (R45, R67). -/
inductive HostOp where
  | read (offset : BitVec 6) (width : Width)
  | write (offset : BitVec 6) (width : Width) (data : Word)
  /-- The `poll` of R67: reads of STATUS that end on the first one with BUSY = 0. -/
  | poll
  deriving DecidableEq, Repr

/-- Which agent moves (R20), and the platform's reset input (R140). CORE moves together with the host's CMD write
(R19, R51), so it has no turn of its own. -/
inductive Turn where
  | host
  | tick
  /-- SCAN reads one byte of LIVE (R20). -/
  | scan (plane row byte : Nat)
  | reset
  deriving DecidableEq, Repr

/-- Why a step stops. No command and no host access raises one: every error the spec names is recorded in STATUS
and the machine goes on (R120, R124). -/
inductive Fault where
  /-- Raised by SCAN's turn alone, when it names a byte that LIVE does not have (R45). Safe: the spec gives no such
  byte, and the machine stops where it would have to invent one. -/
  | noSuchLiveByte (plane row byte : Nat)
  deriving DecidableEq, Repr

/-- Why a command has no meaning. -/
inductive Refusal where
  /-- The command is rejected by name. No arm of exec raises it: every command has its meaning. Safe. -/
  | notModelled (mnemonic : String)
  deriving DecidableEq, Repr

/-- The state. The fields from held on are the environment's: what the host has issued and still does, whose turn it
is, and what the last reads returned. DESIGN CHOICE, log entries 4, 5 and 9. -/
structure State where
  /-- The build: CONFIG0, CONFIG1, the sine ROM and PIXEL_MASK (R34, R39, R14). No step changes it. -/
  build : Build
  /-- The operand registers (R22). -/
  opa : Word
  opb : Word
  opc : Word
  opd : Word
  /-- The result register (R23). -/
  res : Word
  /-- STATUS.BUSY, STATUS.RUN and STATUS.RDONE (R25, R26, R27). -/
  busy : Bool
  run : Bool
  rdone : Bool
  /-- STATUS[15:8], the sticky error bits: bit i here is STATUS bit 8 + i (R24, R29). -/
  errors : Byte
  /-- The render sequence's registers (R31). -/
  t : Half
  tstop : Half
  tdelta : Half
  delay : Half
  /-- The milliseconds still to wait (R32). -/
  wcnt : Half
  /-- The count of completed frames (R33). -/
  commits : Word
  /-- ERRINFO: offset, code, opcode (R30). -/
  errinfo : BitVec 24
  /-- OFF, the off-screen buffer (R37). -/
  off : Memory
  /-- LIVE, the live buffer (R38). -/
  live : Memory
  /-- The word of a CMD write that the host has issued and that is held (R113). -/
  held : Option Word
  /-- The accesses the host has still to issue, in its order (R51). -/
  host : List HostOp
  /-- Whose turn comes next; when none is listed, `nextTurn` says. -/
  turns : List Turn
  /-- What the host's last read returned on the bus (R111), none before the first. -/
  readData : Option Word
  /-- What SCAN's last read returned (R20), none before the first. -/
  scanData : Option Byte
  deriving DecidableEq, Repr

/-- FPCORE right after reset (R43, R140) for one build and one content of LIVE, with an environment that has done
nothing and has nothing left to do. DESIGN CHOICE, log entry 21. -/
def State.afterReset (b : Build) (live : Memory) : State :=
  { build := b, opa := 0#32, opb := 0#32, opc := 0#32, opd := 0#32, res := 0#32,
    busy := false, run := false, rdone := false, errors := 0#8,
    t := 0#16, tstop := 0#16, tdelta := 0#16, delay := 0#16, wcnt := 0#16,
    commits := 0#32, errinfo := 0#24, off := [], live := live,
    held := none, host := [], turns := [], readData := none, scanData := none }

/-- LIVE holding LIVE_INIT (R38). -/
def initialLive (b : Build) (f : Nat → Byte) : Memory := tabulateFrom f 0 (bufferSize b.toParams)

/-- The machine right after reset (R43): the OPEN build, and LIVE holding the OPEN LIVE_INIT. -/
def State.reset : State := State.afterReset Config.build (initialLive Config.build Config.liveInit)

end Sys2Proof.Machine
end

