-- ==== Sys2Proof/Machine/Operands.lean ====
section
/-! DEFINITION. The value notation of R16, the four operand forms of R64, and the policy's constants (R10, R12, R13). -/

namespace Sys2Proof.Machine

/-- `narrow16(v)`: the low 16 bits of v as a two's-complement value (R16). -/
def narrow16 (v : Int) : Int := (BitVec.ofInt 16 v).toInt

/-- `fits16(v)`: v lies in [-32768, 32767] (R16). -/
def fits16 (v : Int) : Bool := decide (-32768 ≤ v) && decide (v ≤ 32767)

/-- `s32(v)` (R16). -/
def s32 (v : Int) : Int := (BitVec.ofInt 32 v).toInt

/-- `u32(v) = v mod 2^32` (R16). -/
def u32 (v : Int) : Int := v % 2 ^ 32

/-- `NS(X)`: bits 15:0, signed (R64). -/
def narrowSigned (x : Word) : Int := (x.extractLsb' 0 16).toInt

/-- `NU(X)`: bits 15:0, unsigned (R64). -/
def narrowUnsigned (x : Word) : Nat := (x.extractLsb' 0 16).toNat

/-- `WS(X)`: all 32 bits, signed (R64). -/
def wideSigned (x : Word) : Int := x.toInt

/-- `WU(X)`: all 32 bits, unsigned (R64). -/
def wideUnsigned (x : Word) : Nat := x.toNat

/-- FRAC, the number of fraction bits (R4). -/
def fracBits : Prec → Nat
  | .low => 5
  | .normal => 8

/-- SIN_DIV, the angle LSBs of one table quantum (R10). -/
def sinDiv : Prec → Nat
  | .low => 1
  | .normal => 8

/-- SIN_LEN and SIN_COUNT (R9). -/
def sinLen : Nat := 50
def sinCount : Nat := 4 * sinLen

/-- COS_OFFSET (R12). -/
def cosOffset : Prec → Int
  | .low => 50
  | .normal => 402

/-- SQRT_BITS (R13). -/
def sqrtBits : Nat := 32

/-- SQRT_ITER (R13): half the bit width plus half the fraction bits, each half rounded down. -/
def sqrtIter (p : Prec) : Nat := sqrtBits / 2 + fracBits p / 2

/-- SIN_TABLE[k] (R11). The index is below 50 at every lookup (R83), so the 0 is never the answer.
DEDUCED, log entry 16. -/
def sinEntry (b : Build) (k : Nat) : Int := Int.ofNat (b.sinTable[k]?.getD 0)

/-- PIXEL_MASK[i] (R14), indexed by c mod 8, which is below 8. -/
def pixelMaskAt (b : Build) (i : Nat) : Byte := b.pixelMask[i]?.getD 0#8

end Sys2Proof.Machine
end

