-- ==== Sys2Proof/Machine/Flags.lean ====
section
/-! DEFINITION. The error codes and STATUS bits (R24, R121), the words STATUS, ERRINFO, CONFIG0 and CONFIG1 read
as (R24, R30, R34), and the range test of the sequencer (R104). -/

namespace Sys2Proof.Machine

/-- The code of an error: its STATUS bit number (R121). -/
def ErrorCode.code : ErrorCode → Byte
  | .ill => 8#8
  | .dz => 9#8
  | .ov => 10#8
  | .coord => 11#8
  | .lvl => 12#8
  | .td0 => 13#8
  | .seq => 14#8
  | .bus => 15#8

/-- The error's bit within STATUS[15:8] (R24). -/
def ErrorCode.mask : ErrorCode → Byte
  | .ill => 0x01#8
  | .dz => 0x02#8
  | .ov => 0x04#8
  | .coord => 0x08#8
  | .lvl => 0x10#8
  | .td0 => 0x20#8
  | .seq => 0x40#8
  | .bus => 0x80#8

/-- The three fields of ERRINFO (R30). -/
def errinfoOf (offset code opcode : Byte) : BitVec 24 := offset ++ code ++ opcode

/-- STATUS.ERR, the OR of bits 15:8 (R28). It is computed, not stored. -/
def errBit (s : State) : Bool := decide (s.errors ≠ 0#8)

/-- STATUS as it reads (R24): bits 31:16 and 7:4 are 0. -/
def statusWord (s : State) : Word :=
  0#16 ++ s.errors ++ 0#4 ++ BitVec.ofBool (errBit s) ++ BitVec.ofBool s.rdone ++ BitVec.ofBool s.run
    ++ BitVec.ofBool s.busy

/-- What a STATUS write of w leaves of the error bits: each bit written as 1 is cleared (R114). -/
def clearWritten (errors : Byte) (w : Word) : Byte := errors &&& ~~~ (w.extractLsb' 8 8)

/-- CONFIG0 (R34). -/
def config0Word (g : Params) : Word :=
  0#8 ++ BitVec.ofNat 8 g.numRows ++ BitVec.ofNat 8 g.numPlanes ++ 0#6 ++ BitVec.ofBool g.doubleBuffer
    ++ BitVec.ofBool (decide (g.prec = .low))

/-- CONFIG1 (R34). -/
def config1Word (g : Params) : Word := 0#16 ++ BitVec.ofNat 8 g.lineBytes ++ BitVec.ofNat 8 g.numCols

/-- `in_range(t)` (R104), on exact integers. -/
def inRange (tdelta tstop t : Int) : Bool :=
  if tdelta > 0 then decide (t < tstop) else decide (t > tstop)

end Sys2Proof.Machine
end

