-- ==== Sys2Proof/Machine/Ops.lean ====
section
/-! DEFINITION. The shared operations over state: recording an error (R120, R122), writing a result (R18), and the
frame buffers' operations (R49, R100). FPCORE has no trap: an error saves ERRINFO, sets its STATUS bit, and
transfers no control (R124), so there is no return operation beside `raise`. -/

namespace Sys2Proof.Machine

/-- `raise E_X(info)` and the recording half of `flag OV`: set the error's sticky bit and write ERRINFO, even when
the bit was already 1 (R120, R122). Nothing else changes. -/
def raise (e : ErrorCode) (opcode offset : Byte) (s : State) : State :=
  { s with errors := s.errors ||| e.mask, errinfo := errinfoOf offset e.code opcode }

/-- An aborting error of a command: ERRINFO.OPCODE is the command's opcode and OFFSET is 0 (R121). -/
def abort (e : ErrorCode) (i : Instr) (s : State) : State := raise e i.opcode 0#8 s

/-- `flag OV` of a command when ov holds. One call a command, so ERRINFO is written once (R122). -/
def flagOv (i : Instr) (ov : Bool) (s : State) : State := if ov then raise .ov i.opcode 0#8 s else s

/-- `result(v)`: RES <- s32(v) (R18). -/
def setResult (v : Int) (s : State) : State := { s with res := BitVec.ofInt 32 v }

/-- How every arithmetic command ends: `if ov: flag OV; result(narrow16(v))`. -/
def finish (i : Instr) (ov : Bool) (v : Int) (s : State) : State := setResult (narrow16 v) (flagOv i ov s)

/-- TGT, the buffer FBEGIN and PLOT write (R100). -/
def target (s : State) : Memory := if s.build.doubleBuffer then s.off else s.live

/-- Replace TGT. -/
def setTarget (m : Memory) (s : State) : State := if s.build.doubleBuffer then { s with off := m } else { s with live := m }

/-- The copy of a commit (R52): every byte of OFF into LIVE, only when DOUBLE_BUFFER = ON (R100). OFF is kept. -/
def copyFrame (s : State) : State :=
  if s.build.doubleBuffer then { s with live := copyBelow (bufferSize s.build.toParams) s.off s.live } else s

/-- A commit: the copy, and COMMITS counts it in both buffer modes (R33, R103, R106). -/
def commitFrame (s : State) : State :=
  let s := copyFrame s
  { s with commits := s.commits + 1#32 }

end Sys2Proof.Machine
end

