-- ==== Sys2Proof/Machine/Arith.lean ====
section
/-! DEFINITION. Scale-up, scale-down, multiply and divide (R70 to R74). -/

namespace Sys2Proof.Machine

/-- `n · FIX` of R70. -/
def scaleUp (p : Prec) (n : Int) : Int := n * p.fix

/-- SCALEUP (R70). -/
def execScaleup (s : State) : Host.Outcome State Fault Refusal :=
  let v := scaleUp s.build.prec (narrowSigned s.opa)
  .next (finish .scaleup (!fits16 v) v s)

/-- SCALEDN (R71): rounds toward zero and always fits. -/
def execScaledn (s : State) : Host.Outcome State Fault Refusal :=
  .next (setResult ((narrowSigned s.opa).tdiv s.build.prec.fix) s)

/-- MULW, the wide multiply step (R72): unsigned 32-bit in LOW, signed 32-bit in NORMAL (R5). -/
def mulw : Prec → Int → Int → Int
  | .low, a, b => u32 (u32 a * u32 b) / 32
  | .normal, a, b => (a * b).tdiv 256

/-- The rounded quotient of MUL (R73): toward minus infinity in LOW, toward zero in NORMAL. -/
def mulQuotient : Prec → Int → Int → Int
  | .low, a, b => (a * b).fdiv 32
  | .normal, a, b => (a * b).tdiv 256

/-- MUL (R73). -/
def execMul (s : State) : Host.Outcome State Fault Refusal :=
  let q := mulQuotient s.build.prec (narrowSigned s.opa) (narrowSigned s.opb)
  .next (finish .mul (!fits16 q) q s)

/-- LOW's division (R74): unsigned, the scaled dividend wrapped mod 2^32. The overflow flag and the quotient. -/
def divLow (a b : Nat) : Bool × Int :=
  let p := a * 32
  let q : Nat := p % 2 ^ 32 / b
  (decide (2 ^ 32 ≤ p) || decide (32767 < q), q)

/-- NORMAL's division (R74): signed, toward zero, the scaled dividend wrapped mod 2^32. -/
def divNormal (a b : Int) : Bool × Int :=
  let p := a * 256
  let q := (s32 p).tdiv b
  (!(decide (-2 ^ 31 ≤ p) && decide (p < 2 ^ 31)) || !fits16 q, q)

/-- The division of the policy, on its operand forms (R74). -/
def divide : Prec → Word → Word → Bool × Int
  | .low, a, b => divLow (wideUnsigned a) (wideUnsigned b)
  | .normal, a, b => divNormal (wideSigned a) (wideSigned b)

/-- DIV (R74): E_DZ when the divisor is 0, and then nothing else changes. -/
def execDiv (s : State) : Host.Outcome State Fault Refusal :=
  .next (
    if s.opb = 0#32 then abort .dz .div s
    else finish .div (divide s.build.prec s.opa s.opb).1 (divide s.build.prec s.opa s.opb).2 s)

end Sys2Proof.Machine
end

