-- ==== Sys2Proof/Machine/Bus.lean ====
section
/-! DEFINITION. NOP, and the host's accesses to the register window (R45, R46, R110 to R114). -/

namespace Sys2Proof.Machine

/-- NOP (R110). -/
def execNop (s : State) : Host.Outcome State Fault Refusal := .next s

/-- The byte offset of a register from BASE (R21). -/
def Reg.offset : Reg → BitVec 6
  | .cmd => 0x00#6
  | .status => 0x04#6
  | .opa => 0x08#6
  | .opb => 0x0C#6
  | .opc => 0x10#6
  | .opd => 0x14#6
  | .res => 0x18#6
  | .t => 0x1C#6
  | .tstop => 0x20#6
  | .tdelta => 0x24#6
  | .delay => 0x28#6
  | .wcnt => 0x2C#6
  | .commits => 0x30#6
  | .errinfo => 0x34#6
  | .config0 => 0x38#6
  | .config1 => 0x3C#6

/-- The register of the word that holds a byte offset (R21). The sixteen words fill the window (R45). -/
def regAt (offset : BitVec 6) : Reg :=
  match offset.toNat / 4 with
  | 0 => .cmd
  | 1 => .status
  | 2 => .opa
  | 3 => .opb
  | 4 => .opc
  | 5 => .opd
  | 6 => .res
  | 7 => .t
  | 8 => .tstop
  | 9 => .tdelta
  | 10 => .delay
  | 11 => .wcnt
  | 12 => .commits
  | 13 => .errinfo
  | 14 => .config0
  | _ => .config1

/-- The byte offset of a bus address in the window `[BASE, BASE + 0x40)`, none outside it (R45), where the
access is not FPCORE's. DEDUCED, log entry 6. -/
def windowOffset (g : Params) (addr : Nat) : Option (BitVec 6) :=
  if g.base ≤ addr ∧ addr < g.base + 0x40 then some (BitVec.ofNat 6 (addr - g.base)) else none

/-- The bus address of a register (R21, R45). -/
def regAddress (g : Params) (r : Reg) : Nat := g.base + r.offset.toNat

/-- A legal access: 32 bits wide, at an offset that is a multiple of 4 (R46). -/
def accessLegal (offset : BitVec 6) : Width → Bool
  | .word => decide (offset.toNat % 4 = 0)
  | .half => false
  | .byte => false

/-- What a register reads as (R111). Unassigned bits read 0 (R35). -/
def readReg (r : Reg) (s : State) : Word :=
  match r with
  | .cmd => 0#32
  | .status => statusWord s
  | .opa => s.opa
  | .opb => s.opb
  | .opc => s.opc
  | .opd => s.opd
  | .res => s.res
  | .t => s.t.signExtend 32
  | .tstop => s.tstop.signExtend 32
  | .tdelta => s.tdelta.signExtend 32
  | .delay => s.delay.setWidth 32
  | .wcnt => s.wcnt.setWidth 32
  | .commits => s.commits
  | .errinfo => s.errinfo.setWidth 32
  | .config0 => config0Word s.build.toParams
  | .config1 => config1Word s.build.toParams

/-- A STATUS write clears the error bits written as 1; ERRINFO is unchanged (R114). -/
def writeStatus (w : Word) (s : State) : State := { s with errors := clearWritten s.errors w }

/-- A legal write of w to a register other than CMD (R112). A write to a read-only register does nothing. -/
def writeReg (r : Reg) (w : Word) (s : State) : State :=
  match r with
  | .opa => { s with opa := w }
  | .opb => { s with opb := w }
  | .opc => { s with opc := w }
  | .opd => { s with opd := w }
  | .status => writeStatus w s
  | .cmd => s
  | .res | .t | .tstop | .tdelta | .delay | .wcnt | .commits | .errinfo | .config0 | .config1 => s

/-- E_BUS (R46, R121): ERRINFO.OFFSET is the access's offset and OPCODE is 0. -/
def busError (offset : BitVec 6) (s : State) : State := raise .bus 0x00#8 (offset.setWidth 8) s

/-- A host read (R111, R46): the word on the bus, 0 for an illegal access. -/
def hostRead (offset : BitVec 6) (w : Width) (s : State) : State :=
  if accessLegal offset w then { s with readData := some (readReg (regAt offset) s) }
  else { busError offset s with readData := some 0#32 }

/-- E_ILL (R62, R63, R121): ERRINFO.OPCODE is w[7:0]. -/
def illegalCommand (e : DecodeError) (s : State) : State :=
  match e with
  | .reservedBits op => raise .ill op 0#8 s
  | .unassignedOpcode op => raise .ill op 0#8 s

/-- The reset event (R140): registers, STATUS and OFF at their reset values, LIVE and the build kept, a held CMD
write dropped. What the host still has to issue, the turns and the values already read are not FPCORE's. DEDUCED, log
entry 10. -/
def resetEvent (s : State) : State :=
  { State.afterReset s.build s.live with
    host := s.host, turns := s.turns, readData := s.readData, scanData := s.scanData }

end Sys2Proof.Machine
end

