-- ==== Sys2Proof/Machine/Compositor.lean ====
section
/-! DEFINITION. The bitplane compositor: FBEGIN, PLOT and FCOMMIT (R101 to R103). -/

namespace Sys2Proof.Machine

/-- FBEGIN (R101): every byte of TGT is 0, padding bits too. -/
def execFbegin (s : State) : Host.Outcome State Fault Refusal :=
  .next (setTarget (clearBelow (bufferSize s.build.toParams) (target s)) s)

/-- What PLOT leaves in one byte of one plane: the mask set in planes up to the level, cleared above (R102). -/
def markByte (plane level : Nat) (m old : Byte) : Byte := if plane ≤ level then old ||| m else old &&& ~~~ m

/-- The loop of PLOT over planes 1 to n, for byte b of row r (R102). -/
def markPlanes (g : Params) (r b level : Nat) (m : Byte) : Nat → Memory → Memory
  | 0, mem => mem
  | n + 1, mem =>
    let mem := markPlanes g r b level m n mem
    let a := cellIndex g (n + 1) r b
    writeByte mem a (markByte (n + 1) level m (readByte mem a))

/-- R102: the column and the row lie inside the display. -/
def coordOk (g : Params) (c r : Nat) : Bool := decide (c < g.numCols) && decide (r < g.numRows)

/-- R102: the level lies in [1, NUMPLANES]. -/
def levelOk (g : Params) (l : Nat) : Bool := decide (1 ≤ l) && decide (l ≤ g.numPlanes)

/-- The marking of PLOT, once its operands are in range (R102). -/
def plotPixel (c r l : Nat) (s : State) : State :=
  setTarget (markPlanes s.build.toParams r (c / 8) l (pixelMaskAt s.build (c % 8)) s.build.numPlanes (target s)) s

/-- PLOT (R102): E_COORD is checked first, then E_LVL (R123), and in both cases nothing is written. -/
def execPlot (s : State) : Host.Outcome State Fault Refusal :=
  .next (
    if !coordOk s.build.toParams (narrowUnsigned s.opa) (narrowUnsigned s.opb) then abort .coord .plot s
    else if !levelOk s.build.toParams (narrowUnsigned s.opc) then abort .lvl .plot s
    else plotPixel (narrowUnsigned s.opa) (narrowUnsigned s.opb) (narrowUnsigned s.opc) s)

/-- FCOMMIT (R103). -/
def execFcommit (s : State) : Host.Outcome State Fault Refusal := .next (commitFrame s)

end Sys2Proof.Machine
end

