-- ==== Sys2Proof/Machine/Root.lean ====
section
/-! DEFINITION. The digit-by-digit square root and the distance (R90 to R93). -/

namespace Sys2Proof.Machine

/-- The working values of the square-root unit (R90). They live only inside one command step (R41). -/
structure RootState where
  rem : Word
  root : Word
  xs : Word
  deriving DecidableEq, Repr

/-- One iteration of TSQRT (R90): bring down two input bits, compare with the trial value, subtract if it fits. -/
def rootStep (r : RootState) : RootState :=
  let rem := (r.rem <<< 2) ||| (r.xs >>> 30)
  let xs := r.xs <<< 2
  let root := r.root <<< 1
  let e := (root <<< 1) ||| 1#32
  if e ≤ rem then { rem := rem - e, root := root + 1#32, xs := xs } else { rem := rem, root := root, xs := xs }

/-- The loop of TSQRT: a fixed number of iterations, no early exit (R90). -/
def rootLoop : Nat → RootState → RootState
  | 0, r => r
  | n + 1, r => rootLoop n (rootStep r)

/-- TSQRT (R90). -/
def tsqrt (p : Prec) (x : Word) : Nat := (rootLoop (sqrtIter p) { rem := 0#32, root := 0#32, xs := x }).root.toNat

/-- SQRT (R92). -/
def execSqrt (s : State) : Host.Outcome State Fault Refusal :=
  let r := tsqrt s.build.prec s.opa
  .next (finish .sqrt (decide (32767 < r)) r s)

/-- The wide sum of squares of DIST (R93), of differences already narrowed. -/
def sumOfSquares (p : Prec) (dx dy : Int) : Int := mulw p dx dx + mulw p dy dy

/-- DIST (R93): the differences wrap to 16 bits, the squares stay wide, the root is narrowed. -/
def execDist (s : State) : Host.Outcome State Fault Refusal :=
  let dx := narrowSigned s.opa - narrowSigned s.opc
  let dy := narrowSigned s.opb - narrowSigned s.opd
  let r := tsqrt s.build.prec (BitVec.ofInt 32 (sumOfSquares s.build.prec (narrow16 dx) (narrow16 dy)))
  .next (finish .dist (!fits16 dx || !fits16 dy || decide (32767 < r)) r s)

end Sys2Proof.Machine
end

