-- ==== Sys2Proof/Machine/Sequencer.lean ====
section
/-! DEFINITION. The frame sequencer: RSTART, RNEXT and the TICK step (R104 to R107). -/

namespace Sys2Proof.Machine

/-- The effect of an RSTART that is accepted (R105). -/
def startSequence (s : State) : State :=
  let ts := s.opa.extractLsb' 0 16
  let tp := s.opb.extractLsb' 0 16
  let td := s.opc.extractLsb' 0 16
  let more := inRange td.toInt tp.toInt ts.toInt
  { s with t := ts, tstop := tp, tdelta := td, delay := s.opd.extractLsb' 0 16, run := more, rdone := !more }

/-- RSTART (R105): E_SEQ while a sequence runs, then E_TD0 for a zero step (R123). -/
def execRstart (s : State) : Host.Outcome State Fault Refusal :=
  .next (
    if s.run then abort .seq .rstart s
    else if narrowSigned s.opc = 0 then abort .td0 .rstart s
    else startSequence s)

/-- The exact next time of a sequence (R106). -/
def nextTime (s : State) : Int := s.t.toInt + s.tdelta.toInt

/-- Step the sequence: T advances while the exact sum is in range, else the sequence ends and T keeps the last
frame's time (R106). -/
def advance (s : State) : State :=
  if inRange s.tdelta.toInt s.tstop.toInt (nextTime s) then { s with t := BitVec.ofInt 16 (nextTime s) }
  else { s with run := false, rdone := true }

/-- Begin the frame delay (R106). -/
def startDelay (s : State) : State := { s with wcnt := s.delay, busy := decide (s.delay ≠ 0#16) }

/-- RNEXT (R106): the frame's commit, the step, and the delay, in one atomic step. -/
def execRnext (s : State) : Host.Outcome State Fault Refusal :=
  .next (if s.run then startDelay (advance (commitFrame s)) else abort .seq .rnext s)

/-- The TICK step (R107): one millisecond. -/
def tickStep (s : State) : State :=
  if s.wcnt = 0#16 then s
  else { s with wcnt := s.wcnt - 1#16, busy := if s.wcnt - 1#16 = 0#16 then false else s.busy }

end Sys2Proof.Machine
end

