-- ==== Sys2Proof/Machine/Trig.lean ====
section
/-! DEFINITION. Sine and cosine by the quadrant-folded table (R80 to R84). -/

namespace Sys2Proof.Machine

/-- Step (b) of R80: the quantum index of an angle's magnitude, modulo the full period. -/
def quantum (p : Prec) (x : Int) : Nat := x.natAbs / sinDiv p % sinCount

/-- The first fold of step (c): quadrants 3 and 4 mirror about the full period. -/
def foldFull (k : Nat) : Nat := if k ≥ 100 then 199 - k else k

/-- The second fold of step (c): quadrant 2 mirrors about the half-period. -/
def foldHalf (k : Nat) : Nat := if k ≥ 50 then 99 - k else k

/-- The folded index of an angle (R80, R83). -/
def foldedIndex (p : Prec) (x : Int) : Nat := foldHalf (foldFull (quantum p x))

/-- The sign of the result: the angle's own, flipped in quadrants 3 and 4 (R80 (a), (c)). -/
def foldedNegative (p : Prec) (x : Int) : Bool := decide (x < 0) ^^ decide (quantum p x ≥ 100)

/-- SINCORE (R80). -/
def sincore (b : Build) (x : Int) : Int :=
  let v := sinEntry b (foldedIndex b.prec x)
  if foldedNegative b.prec x then -v else v

/-- SIN (R81). -/
def execSin (s : State) : Host.Outcome State Fault Refusal :=
  .next (setResult (sincore s.build (wideSigned s.opa)) s)

/-- COS (R82): the offset angle wraps at 2^31, and then E_OV is flagged. -/
def execCos (s : State) : Host.Outcome State Fault Refusal :=
  let a := wideSigned s.opa + cosOffset s.build.prec
  .next (setResult (sincore s.build (s32 a)) (flagOv .cos (decide (a ≥ 2 ^ 31)) s))

end Sys2Proof.Machine
end

