-- ==== Sys2Proof/Machine/Dispatch.lean ====
section
/-! DEFINITION. exec: the meaning of each command (R61), one arm a constructor. -/

namespace Sys2Proof.Machine

def exec (i : Instr) (s : State) : Host.Outcome State Fault Refusal :=
  match i with
  | .nop => Sys2Proof.Machine.execNop s
  | .scaleup => Sys2Proof.Machine.execScaleup s
  | .scaledn => Sys2Proof.Machine.execScaledn s
  | .mul => Sys2Proof.Machine.execMul s
  | .div => Sys2Proof.Machine.execDiv s
  | .sin => Sys2Proof.Machine.execSin s
  | .cos => Sys2Proof.Machine.execCos s
  | .sqrt => Sys2Proof.Machine.execSqrt s
  | .dist => Sys2Proof.Machine.execDist s
  | .fbegin => Sys2Proof.Machine.execFbegin s
  | .plot => Sys2Proof.Machine.execPlot s
  | .fcommit => Sys2Proof.Machine.execFcommit s
  | .rstart => Sys2Proof.Machine.execRstart s
  | .rnext => Sys2Proof.Machine.execRnext s

end Sys2Proof.Machine
end

