-- ==== Sys2Proof/Machine/Agents.lean ====
section
/-! DEFINITION. The steps of the agents around and in FPCORE (R20): the host with the command it starts (R19, R51),
the timing source (R107), the display scan, and the reset input (R140). -/

namespace Sys2Proof.Machine

/-- CORE runs one command word (R36): the command it decodes to, or E_ILL. -/
def performCommand (w : Word) (s : State) : Host.Outcome State Fault Refusal :=
  match decode w with
  | .ok i => exec i s
  | .error e => .next (illegalCommand e s)

/-- The host writes CMD: performed together with its command (R51), held while BUSY = 1 (R113), in a field of its own.
DEDUCED, log entry 5. -/
def commandWrite (w : Word) (s : State) : Host.Outcome State Fault Refusal :=
  if s.busy then .next { s with held := some w } else performCommand w s

/-- The host writes the window (R112, R46). An illegal access is never held. -/
def hostWrite (offset : BitVec 6) (width : Width) (w : Word) (s : State) : Host.Outcome State Fault Refusal :=
  if accessLegal offset width then
    if regAt offset = .cmd then commandWrite w s else .next (writeReg (regAt offset) w s)
  else .next (busError offset s)

/-- One read of a poll (R67): STATUS is read, and the poll stays in front of the host's accesses while BUSY = 1. -/
def pollStep (rest : List HostOp) (s : State) : State :=
  { s with readData := some (statusWord s), host := if s.busy then .poll :: rest else rest }

/-- The host's step: its held write if there is one, else its next access, in its own order (R51). A held write is
performed once BUSY = 0, and until then the host has no step (R113). -/
def hostStep (s : State) : Host.Outcome State Fault Refusal :=
  match s.held with
  | some w => if s.busy then .next s else performCommand w { s with held := none }
  | none =>
    match s.host with
    | [] => .next s
    | .read offset width :: rest => .next (hostRead offset width { s with host := rest })
    | .write offset width w :: rest => hostWrite offset width w { s with host := rest }
    | .poll :: rest => .next (pollStep rest s)

/-- SCAN reads one byte of LIVE and changes nothing of FPCORE (R20, R49). A byte that LIVE does not have is a fault.
DESIGN CHOICE, log entry 7. -/
def scanStep (p r b : Nat) (s : State) : Host.Outcome State Fault Refusal :=
  if cellExists s.build.toParams p r b then
    .next { s with scanData := some (readByte s.live (cellIndex s.build.toParams p r b)) }
  else .fault (.noSuchLiveByte p r b)

/-- The host can do more than wait: it has a write that is no longer held, or an access that is not a poll of a
machine that is still BUSY. -/
def hostReady (s : State) : Bool :=
  match s.held with
  | some _ => !s.busy
  | none =>
    match s.host with
    | [] => false
    | .poll :: _ => !s.busy
    | .read _ _ :: _ => true
    | .write _ _ _ :: _ => true

/-- Whose turn it is. Any agent may move whenever it can (R20), so the order is an input, `turns`; where the input
lists none, the host moves while it has something to do, else a millisecond passes. DESIGN CHOICE, log entry 4. -/
def nextTurn (s : State) : Turn :=
  match s.turns with
  | turn :: _ => turn
  | [] => if hostReady s then .host else .tick

/-- The turn is taken. -/
def takeTurn (s : State) : State := { s with turns := s.turns.tail }

/-- One agent's step. -/
def agentStep (turn : Turn) (s : State) : Host.Outcome State Fault Refusal :=
  match turn with
  | .host => hostStep s
  | .tick => .next (tickStep s)
  | .scan p r b => scanStep p r b s
  | .reset => .next (resetEvent s)

/-- The host is about to write the word w to CMD and nothing holds it back: its turn is next, no write is held, and
no frame delay runs. -/
def placeCommand (w : Word) (s : State) : State :=
  { s with busy := false, wcnt := 0#16, held := none, host := .write Reg.cmd.offset .word w :: s.host,
           turns := .host :: s.turns }

end Sys2Proof.Machine
end

