-- ==== Sys2Proof/Machine/Step.lean ====
section
/-! DEFINITION. One step of the machine, and a command word placed so that the next step runs it. -/

namespace Sys2Proof.Machine

/-- One step: the next turn is taken, and its agent moves (R20). -/
def step (s : State) : Host.Outcome State Fault Refusal := agentStep (nextTurn s) (takeTurn s)

/-- s with the command word placed as the host's next access, so that the next step performs it. FPCORE fetches
nothing (R40): a command comes through CMD, and the host's accesses come from outside. DESIGN CHOICE, log entry 3. -/
def State.withFetchWord (s : State) (nbits w : Nat) : State := placeCommand (BitVec.ofNat 32 (w % 2 ^ nbits)) s

end Sys2Proof.Machine
end

