-- ==== Sys2Proof/Machine/Protocol.lean ====
section
/-! DEFINITION. The host's notation (R67, R68) and the render protocol (R108), as lists of bus accesses. The
brightness function is host software, so it is an argument here and no part of State (R42). -/

namespace Sys2Proof.Machine

/-- `wr REG, value` (R67). -/
def wr (r : Reg) (v : Word) : HostOp := .write r.offset .word v

/-- `rd REG` (R67). -/
def rd (r : Reg) : HostOp := .read r.offset .word

/-- `cmd MNEMONIC` (R67). -/
def cmd (i : Instr) : HostOp := wr .cmd (encode i)

/-- The one-operand pseudo-instructions of R68: scaleup, scaledn, sin, cos and sqrt. -/
def pseudoUnary (i : Instr) (x : Word) : List HostOp := [wr .opa x, cmd i, rd .res]

/-- `mul a, b` and `div a, b` (R68). -/
def pseudoBinary (i : Instr) (a b : Word) : List HostOp := [wr .opa a, wr .opb b, cmd i, rd .res]

/-- `dist x1, y1, x2, y2` (R68). -/
def pseudoDist (x1 y1 x2 y2 : Word) : List HostOp :=
  [wr .opa x1, wr .opb y1, wr .opc x2, wr .opd y2, cmd .dist, rd .res]

/-- `plot c, r, L` (R68). -/
def pseudoPlot (c r l : Word) : List HostOp := [wr .opa c, wr .opb r, wr .opc l, cmd .plot]

/-- `rstart ts, tp, td, ms` (R68). -/
def pseudoRstart (ts tp td ms : Word) : List HostOp :=
  [wr .opa ts, wr .opb tp, wr .opc td, wr .opd ms, cmd .rstart]

/-- `rnext` (R68). -/
def pseudoRnext : List HostOp := [cmd .rnext, .poll]

/-- `clrerr` (R68). -/
def pseudoClrerr : List HostOp := [wr .status 0x0000FF00#32]

/-- The number of frames of a sequence with a nonzero step (R109): the ceiling of the distance over the step, 0 for
an empty range. -/
def frameCount (ts tp td : Int) : Nat :=
  if td > 0 then ((tp - ts + td - 1) / td).toNat else ((ts - tp + -td - 1) / -td).toNat

/-- The plots of one frame, every pixel once, row by row (R108). -/
def frameOps (g : Params) (level : Nat → Nat → Word) : List HostOp :=
  (List.range g.numRows).flatMap fun r =>
    (List.range g.numCols).flatMap fun c => pseudoPlot (BitVec.ofNat 32 c) (BitVec.ofNat 32 r) (level c r)

/-- The loop of R108 unrolled for the frames at the given times: the host tests RUN, reads T, plots and ends the
step. -/
def renderFrames (g : Params) (bright : Nat → Nat → Int → Word) : List Int → List HostOp
  | [] => [rd .status]
  | t :: rest => rd .status :: rd .t :: frameOps g (fun c r => bright c r t) ++ pseudoRnext ++ renderFrames g bright rest

/-- The render protocol of R108 for a given brightness function. -/
def renderOps (g : Params) (bright : Nat → Nat → Int → Word) (ts tp td : Int) (ms : Word) : List HostOp :=
  pseudoRstart (BitVec.ofInt 32 ts) (BitVec.ofInt 32 tp) (BitVec.ofInt 32 td) ms ++
    renderFrames g bright ((List.range (frameCount ts tp td)).map fun i => ts + i * td)

end Sys2Proof.Machine
end

