-- ==== Sys2Proof/Safety.lean ====
section
/-! DEFINITION. The terms statements about FPCORE use: what a safe run is (R120), the invariant of the machine, what
a command leaves alone, how an error shows, and the spec's own second forms of a rule (R80, R48, R109). -/

namespace Sys2Proof.Machine

/-- No error has been recorded since STATUS[15:8] was last clear: the no-fault premise of R120. -/
def State.errorFree (s : State) : Bool := decide (s.errors = 0#8)

/-- What holds of FPCORE between any two steps. -/
structure Inv (s : State) : Prop where
  /-- R25: BUSY is 1 exactly while WCNT is not 0. -/
  busyWhileWaiting : s.busy = true ↔ s.wcnt ≠ 0#16
  /-- R26, R27: a sequence that runs has not ended. -/
  notBothRunAndDone : ¬ (s.run = true ∧ s.rdone = true)
  /-- R104 to R106: while a sequence runs, its step is not 0 and its time lies in its range. -/
  runningInRange : s.run = true →
    s.tdelta ≠ 0#16 ∧ inRange s.tdelta.toInt s.tstop.toInt s.t.toInt = true
  /-- R23, R76: RES holds a sign-extended 16-bit value. -/
  resultNarrow : s.res = (s.res.extractLsb' 0 16).signExtend 32
  /-- R30: ERRINFO is 0 or names an error code, 8 to 15. -/
  errinfoNamesCode : s.errinfo = 0#24 ∨ (8#8 ≤ s.errinfo.extractLsb' 8 8 ∧ s.errinfo.extractLsb' 8 8 ≤ 15#8)
  /-- R30: ERRINFO is 0 only if no error has been recorded. -/
  errorHasInfo : s.errors ≠ 0#8 → s.errinfo ≠ 0#24
  /-- Both buffers keep their canonical form and list only bytes that exist (R37, R38). -/
  offForm : s.off.wf
  liveForm : s.live.wf
  offInside : s.off.within (bufferSize s.build.toParams)
  liveInside : s.live.within (bufferSize s.build.toParams)
  /-- R37, R100: without double buffering there is no OFF, and it stays empty. -/
  noOffWhenDirect : s.build.doubleBuffer = false → s.off = []

/-- The operand registers keep their values (R22). -/
structure SameOperands (s t : State) : Prop where
  opa : t.opa = s.opa
  opb : t.opb = s.opb
  opc : t.opc = s.opc
  opd : t.opd = s.opd

/-- The render sequence and its delay keep their values (R31, R32, and STATUS bits 2:0). -/
structure SameSequence (s t : State) : Prop where
  time : t.t = s.t
  tstop : t.tstop = s.tstop
  tdelta : t.tdelta = s.tdelta
  delay : t.delay = s.delay
  wcnt : t.wcnt = s.wcnt
  busy : t.busy = s.busy
  run : t.run = s.run
  rdone : t.rdone = s.rdone

/-- Every byte of both buffers reads as before. -/
structure SameBytes (s t : State) : Prop where
  off : ∀ a, readByte t.off a = readByte s.off a
  live : ∀ a, readByte t.live a = readByte s.live a

/-- The build, and what belongs to the agents around FPCORE. -/
structure SameAround (s t : State) : Prop where
  build : t.build = s.build
  held : t.held = s.held
  host : t.host = s.host
  turns : t.turns = s.turns
  readData : t.readData = s.readData
  scanData : t.scanData = s.scanData

/-- The error bits and ERRINFO keep their values. -/
def NoError (s t : State) : Prop := t.errors = s.errors ∧ t.errinfo = s.errinfo

/-- The error with this code, opcode and offset is recorded: its STATUS bit is set, no other error bit changes, and
ERRINFO is the number offset, code, opcode of R30 (R121, R122). -/
def Recorded (code opcode offset : Nat) (s t : State) : Prop :=
  t.errors = s.errors ||| (1#8 <<< (code - 8)) ∧
    t.errinfo = BitVec.ofNat 24 (offset * 65536 + code * 256 + opcode)

/-- Everything but RES, the error bits and ERRINFO is as before: the frame of an arithmetic command (R44). -/
structure ArithFrame (s t : State) : Prop where
  operands : SameOperands s t
  sequence : SameSequence s t
  commits : t.commits = s.commits
  bytes : SameBytes s t
  around : SameAround s t

/-- Everything but the frame buffers is as before: the frame of FBEGIN and of a PLOT that completes (R44). -/
structure PlotFrame (s t : State) : Prop where
  operands : SameOperands s t
  sequence : SameSequence s t
  res : t.res = s.res
  commits : t.commits = s.commits
  errors : NoError s t
  around : SameAround s t

/-- An aborting error of R120: the error is recorded, and nothing else changes. -/
structure Aborted (code opcode offset : Nat) (s t : State) : Prop where
  recorded : Recorded code opcode offset s t
  res : t.res = s.res
  rest : ArithFrame s t

/-- a is q times d and a remainder smaller than d in size with the sign of a: q is a / d rounded toward zero (R17). -/
def TruncatedQuotient (a d q : Int) : Prop := ∃ r, a = q * d + r ∧ r.natAbs < d.natAbs ∧ 0 ≤ r * a

/-- q is a / d rounded toward minus infinity, for d > 0 (R17). -/
def FlooredQuotient (a d q : Int) : Prop := q * d ≤ a ∧ a < (q + 1) * d

/-- r is the largest integer whose square is at most n: `isqrt(n)` (R17). -/
def FloorRoot (n r : Nat) : Prop := r * r ≤ n ∧ n < (r + 1) * (r + 1)

/-- SINCORE by quadrant, the equivalent form R80 gives. -/
def sineByQuadrant (b : Build) (x : Int) : Int :=
  let q := x.natAbs / sinDiv b.prec % 200
  let v :=
    if q < 50 then sinEntry b q
    else if q < 100 then sinEntry b (99 - q)
    else if q < 150 then -sinEntry b (q - 100)
    else -sinEntry b (199 - q)
  if x < 0 then -v else v

/-- The pixel at column c and row r is lit in plane p of a buffer (R48). -/
def pixelLit (b : Build) (m : Memory) (p c r : Nat) : Prop :=
  readByte m (cellIndex b.toParams p r (c / 8)) &&& pixelMaskAt b (c % 8) ≠ 0#8

/-- The state after n RNEXT commands whose delays are over, for as long as each answers a next state. -/
def afterRnexts : Nat → State → Option State
  | 0, s => some s
  | n + 1, s =>
    match exec .rnext s with
    | .next t => afterRnexts n { t with busy := false, wcnt := 0#16 }
    | _ => none

/-- The state after n TICK steps (R107). -/
def afterTicks : Nat → State → State
  | 0, s => s
  | n + 1, s => afterTicks n (tickStep s)

end Sys2Proof.Machine
end

