-- ==== Sys2Proof/Certificates/Slice0/Obligations.lean ====
section
/-! DEFINITION. The statements for the provers. Each formalises rules of spec/, named in its docstring. -/

open Sys2Proof Sys2Proof.Machine

/-! The build -/

/-- R6, R7, R11, R14, R15, R130: parameters are a build exactly when they meet the spec's constraints. That LIVE_BASE
bounds LIVE in every build, linear or not, is the model's reading (log entry 22). -/
def Obligations.BuildsAreTheLegalParameters : Prop :=
  ∀ p : Params, (∃ b : Build, b.toParams = p) ↔
    (1 ≤ p.numRows ∧ p.numRows ≤ 255) ∧ (1 ≤ p.numCols ∧ p.numCols ≤ 255) ∧
    (1 ≤ p.lineBytes ∧ p.lineBytes ≤ 255) ∧ (1 ≤ p.numPlanes ∧ p.numPlanes ≤ 255) ∧
    p.numCols ≤ 8 * p.lineBytes ∧ (p.prec = .low → p.numRows ≤ 16 ∧ p.numCols ≤ 16) ∧
    (∀ k : Fin 50, p.sinTable[k] ≤ p.prec.fix) ∧
    (∀ i : Fin 8, ∃ j : Fin 8, p.pixelMask[i] = 1#8 <<< j.val) ∧
    (∀ i j : Fin 8, p.pixelMask[i] = p.pixelMask[j] → i = j) ∧
    p.base % 64 = 0 ∧ (p.liveBase + bufferSize p ≤ p.base ∨ p.base + 64 ≤ p.liveBase)

/-! Encoding and decoding -/

/-- R61: the opcode map. Each word of the map decodes to its command and is that command's encoding. -/
def Obligations.OpcodeMapWords : Prop :=
  ([(0x00000000#32, Instr.nop), (0x00000001#32, .scaleup), (0x00000002#32, .scaledn), (0x00000003#32, .mul),
    (0x00000004#32, .div), (0x00000005#32, .sin), (0x00000006#32, .cos), (0x00000007#32, .sqrt),
    (0x00000008#32, .dist), (0x00000010#32, .fbegin), (0x00000011#32, .plot), (0x00000012#32, .fcommit),
    (0x00000020#32, .rstart), (0x00000021#32, .rnext)] : List (Word × Instr)).all
      (fun c => decide (encode c.2 = c.1) && decide (decodeTableWord 32 c.1.toNat = some c.2)) = true

/-- R69: decoding is total and exact. A word decodes to a command if and only if it is that command's one word
(mask 0xFFFFFFFF), and it is rejected if and only if a bit of 31:8 is set or bits 7:0 are no OPCODE of R61. -/
def Obligations.DecodeIsTotalAndExact : Prop :=
  ∀ w : Word,
    (∀ i, decode w = .ok i ↔ w = encode i) ∧
    ((∃ e, decode w = .error e) ↔
      w.toNat / 256 ≠ 0 ∨
        w.toNat % 256 ∉ [0x00, 0x01, 0x02, 0x03, 0x04, 0x05, 0x06, 0x07, 0x08, 0x10, 0x11, 0x12, 0x20, 0x21])

/-- R62, R63: a CMD write of a word with a bit of 31:8 set, or with an unassigned OPCODE, raises E_ILL with
ERRINFO.OPCODE = w[7:0], whether the host issues it now or it was held. The whole next state is given, so there is no
other effect. -/
def Obligations.IllegalCommandRaisesEIll : Prop :=
  ∀ (s : State) (w : Word) (ops : List HostOp) (ts : List Turn), s.busy = false →
    (w.toNat / 256 ≠ 0 ∨
      (0x09 ≤ w.toNat % 256 ∧ w.toNat % 256 ≤ 0x0F) ∨ (0x13 ≤ w.toNat % 256 ∧ w.toNat % 256 ≤ 0x1F) ∨
      0x22 ≤ w.toNat % 256) →
    (s.held = none → step { s with host := .write 0x00#6 .word w :: ops, turns := .host :: ts } =
      .next { s with
        host := ops, turns := ts, errors := s.errors ||| 0x01#8,
        errinfo := BitVec.ofNat 24 (0x0800 + w.toNat % 256) }) ∧
    step { s with held := some w, host := ops, turns := .host :: ts } =
      .next { s with
        held := none, host := ops, turns := ts, errors := s.errors ||| 0x01#8,
        errinfo := BitVec.ofNat 24 (0x0800 + w.toNat % 256) }

/-- A step runs the decoded command: when the host's next access writes a command word to CMD, nothing is held and
BUSY is 0, the step is exec of the command at the state where the access has been issued, whether the host's turn
is listed or falls to it; and a write that was held is performed likewise once BUSY is 0 (R19, R51, R113). That the
turn falls to the host when none is listed is the model's choice (log entry 4). -/
def Obligations.StepRunsDecodedCommand : Prop :=
  ∀ (s : State) (w : Word) (i : Instr) (ops : List HostOp) (ts : List Turn), decode w = .ok i → s.busy = false →
    (s.held = none →
      step { s with host := .write 0x00#6 .word w :: ops, turns := .host :: ts } =
        exec i { s with host := ops, turns := ts }) ∧
    (s.held = none →
      step { s with host := .write 0x00#6 .word w :: ops, turns := [] } =
        exec i { s with host := ops, turns := [] }) ∧
    step { s with held := some w, host := ops, turns := .host :: ts } =
      exec i { s with held := none, host := ops, turns := ts }

/-- A command word placed by withFetchWord is run by the very next step, from every state. The hold that such a
placing ends (no delay, nothing held) is the model's (log entry 3). -/
def Obligations.PlacedWordRunsNext : Prop :=
  ∀ (s : State) (w : Word) (i : Instr), decode w = .ok i →
    step (s.withFetchWord 32 w.toNat) = exec i { s with busy := false, wcnt := 0#16, held := none }

/-! Operands and arithmetic -/

/-- R64, the four operand forms: a narrow form reads bits 15:0 and ignores bits 31:16, a wide form reads all 32. -/
def Obligations.OperandFormsReadTheirBits : Prop :=
  ∀ (hi lo : Half) (x : Word),
    narrowSigned (hi ++ lo) = lo.toInt ∧ narrowUnsigned (hi ++ lo) = lo.toNat ∧
    wideSigned x = x.toInt ∧ wideUnsigned x = x.toNat

/-- R70: SCALEUP. -/
def Obligations.ScaleupScalesAndWraps : Prop :=
  encode .scaleup = 0x00000001#32 ∧
  ∀ s : State, ∃ t, exec .scaleup s = .next t ∧
    t.res = BitVec.ofInt 32 (narrow16 (narrowSigned s.opa * s.build.prec.fix)) ∧
    (s.build.prec = .low → (-1024 ≤ narrowSigned s.opa ∧ narrowSigned s.opa ≤ 1023 → NoError s t) ∧
      (narrowSigned s.opa < -1024 ∨ 1023 < narrowSigned s.opa → Recorded 10 0x01 0 s t)) ∧
    (s.build.prec = .normal → (-128 ≤ narrowSigned s.opa ∧ narrowSigned s.opa ≤ 127 → NoError s t) ∧
      (narrowSigned s.opa < -128 ∨ 127 < narrowSigned s.opa → Recorded 10 0x01 0 s t)) ∧
    ArithFrame s t

/-- R71: SCALEDN rounds toward zero, the quotient always fits, and there is no flag. -/
def Obligations.ScalednTruncates : Prop :=
  encode .scaledn = 0x00000002#32 ∧
  ∀ s : State, ∃ (t : State) (q : Int), exec .scaledn s = .next t ∧
    TruncatedQuotient (narrowSigned s.opa) s.build.prec.fix q ∧ q.natAbs ≤ 1024 ∧
    t.res = BitVec.ofInt 32 q ∧ NoError s t ∧ ArithFrame s t

/-- R72: MULW and its narrow result, for every pair of 16-bit operands. -/
def Obligations.WideMultiplyStep : Prop :=
  ∀ a b : Half,
    (0 ≤ mulw .low a.toInt b.toInt ∧ mulw .low a.toInt b.toInt < 2 ^ 27) ∧
    mulw .low a.toInt b.toInt = (a.toInt * b.toInt).fdiv 32 + (if a.toInt * b.toInt < 0 then 2 ^ 27 else 0) ∧
    narrow16 (mulw .low a.toInt b.toInt) = narrow16 ((a.toInt * b.toInt).fdiv 32) ∧
    TruncatedQuotient (a.toInt * b.toInt) 256 (mulw .normal a.toInt b.toInt) ∧
    (0 ≤ a.toInt * b.toInt → ∀ p : Prec,
      mulw p a.toInt b.toInt = (a.toInt * b.toInt).fdiv p.fix ∧
      mulw p a.toInt b.toInt = (a.toInt * b.toInt).tdiv p.fix)

/-- R73: MUL rounds toward minus infinity in LOW and toward zero in NORMAL, wraps to 16 bits, and flags E_OV when
the rounded quotient does not fit. -/
def Obligations.MulRoundsByPolicy : Prop :=
  encode .mul = 0x00000003#32 ∧
  ∀ s : State, ∃ (t : State) (q : Int), exec .mul s = .next t ∧
    (s.build.prec = .low → FlooredQuotient (narrowSigned s.opa * narrowSigned s.opb) 32 q) ∧
    (s.build.prec = .normal → TruncatedQuotient (narrowSigned s.opa * narrowSigned s.opb) 256 q) ∧
    t.res = BitVec.ofInt 32 (narrow16 q) ∧
    (-32768 ≤ q ∧ q ≤ 32767 → NoError s t) ∧ (q < -32768 ∨ 32767 < q → Recorded 10 0x03 0 s t) ∧
    ArithFrame s t

/-- R74: DIV. A zero divisor raises E_DZ and changes nothing else; otherwise the policy's division runs on the
scaled dividend wrapped to 32 bits, and E_OV is flagged when the scaled dividend or the quotient does not fit. -/
def Obligations.DivByPolicy : Prop :=
  encode .div = 0x00000004#32 ∧
  ∀ s : State, ∃ t, exec .div s = .next t ∧
    (s.opb = 0#32 → Aborted 9 0x04 0 s t) ∧
    (s.opb ≠ 0#32 → s.build.prec = .low → ∃ q : Nat,
      FlooredQuotient ((s.opa.toNat * 32) % 2 ^ 32 : Nat) s.opb.toNat q ∧
      t.res = BitVec.ofInt 32 (narrow16 q) ∧
      (s.opa.toNat * 32 < 2 ^ 32 ∧ q ≤ 32767 → NoError s t) ∧
      (2 ^ 32 ≤ s.opa.toNat * 32 ∨ 32767 < q → Recorded 10 0x04 0 s t) ∧ ArithFrame s t) ∧
    (s.opb ≠ 0#32 → s.build.prec = .normal → ∃ q : Int,
      TruncatedQuotient (s32 (s.opa.toInt * 256)) s.opb.toInt q ∧
      t.res = BitVec.ofInt 32 (narrow16 q) ∧
      (s32 (s.opa.toInt * 256) = s.opa.toInt * 256 ∧ -32768 ≤ q ∧ q ≤ 32767 → NoError s t) ∧
      (s32 (s.opa.toInt * 256) ≠ s.opa.toInt * 256 ∨ q < -32768 ∨ 32767 < q → Recorded 10 0x04 0 s t) ∧
      ArithFrame s t)

/-! Sine and cosine -/

/-- R83: at every lookup the index is below 100 after the first fold and below 50 after the second. -/
def Obligations.FoldedIndexInTable : Prop :=
  ∀ (p : Prec) (x : Int), foldFull (quantum p x) < 100 ∧ foldedIndex p x < 50

/-- R80, R81: SIN answers the quadrant's table entry with its sign, and flags nothing. -/
def Obligations.SinLooksUpQuadrant : Prop :=
  encode .sin = 0x00000005#32 ∧
  ∀ s : State, ∃ t, exec .sin s = .next t ∧
    t.res = BitVec.ofInt 32 (sineByQuadrant s.build s.opa.toInt) ∧ NoError s t ∧ ArithFrame s t

/-- R82: COS is the sine of the angle plus COS_OFFSET (50 in LOW, 402 in NORMAL), where the sum wraps at 2^31 and
then flags E_OV. -/
def Obligations.CosIsShiftedSine : Prop :=
  encode .cos = 0x00000006#32 ∧
  ∀ s : State, ∃ t, exec .cos s = .next t ∧
    (∀ a : Int, a = s.opa.toInt + (if s.build.prec = .low then 50 else 402) →
      (a < 2 ^ 31 → t.res = BitVec.ofInt 32 (sineByQuadrant s.build a) ∧ NoError s t) ∧
      (2 ^ 31 ≤ a → t.res = BitVec.ofInt 32 (sineByQuadrant s.build (a - 2 ^ 32)) ∧ Recorded 10 0x06 0 s t)) ∧
    ArithFrame s t

/-- The range property of R85: SIN and COS answer a value in [-FIX, FIX] for every angle. -/
def Obligations.SineAndCosineStayInRange : Prop :=
  ∀ (s : State) (i : Instr), i = .sin ∨ i = .cos → ∃ t, exec i s = .next t ∧
    -(s.build.prec.fix : Int) ≤ t.res.toInt ∧ t.res.toInt ≤ s.build.prec.fix

/-- The odd symmetry of R81: for every angle but -2^31 and 0, the sine of the negated angle is the negated sine. At 0,
which is its own negation, R80 gives +T[0] on both sides, so the two are opposite only if T[0] = 0 (log entry 12). -/
def Obligations.SineIsOdd : Prop :=
  ∀ s : State, ∃ t u, exec .sin s = .next t ∧ exec .sin { s with opa := -s.opa } = .next u ∧
    (s.opa ≠ 0x80000000#32 → s.opa ≠ 0#32 → u.res = -t.res) ∧
    (s.opa = 0#32 → t.res = BitVec.ofInt 32 (sinEntry s.build 0) ∧ u.res = t.res)

/-- The period of R85: 200 quanta on either side of zero, but not across it (LOW: SIN(-1) = -T[1], SIN(199) = -T[0]).
The end point x + 200·SIN_DIV = 0 is left out, where R80 gives -T[0] against +T[0] (log entry 12). -/
def Obligations.SinePeriod : Prop :=
  ∀ (b : Build) (x : Int),
    (0 ≤ x → sincore b (x + 200 * sinDiv b.prec) = sincore b x) ∧
    (x + 200 * sinDiv b.prec < 0 → sincore b (x + 200 * sinDiv b.prec) = sincore b x) ∧
    (b.prec = .low → sincore b (-1) = -sinEntry b 1 ∧ sincore b 199 = -sinEntry b 0)

/-! Square root and distance -/

/-- R91: the closed form of TSQRT. -/
def Obligations.RootClosedForm : Prop :=
  ∀ x : Word, FloorRoot (16 * x.toNat) (tsqrt .low x) ∧ FloorRoot (256 * x.toNat) (tsqrt .normal x)

/-- The bounds R90 derives: after each iteration of the root loop the remainder is below 2·root + 1, the root below
2^20 and the remainder below 2^23, so no register of the unit overflows. -/
def Obligations.RootRegistersStayBounded : Prop :=
  ∀ (p : Prec) (x : Word) (n : Nat), n ≤ sqrtIter p → ∀ r : RootState,
    r = rootLoop n { rem := 0#32, root := 0#32, xs := x } →
    r.rem.toNat < 2 * r.root.toNat + 1 ∧ r.root.toNat < 2 ^ 20 ∧ r.rem.toNat < 2 ^ 23

/-- R92: SQRT. -/
def Obligations.SqrtIsFloorRoot : Prop :=
  encode .sqrt = 0x00000007#32 ∧
  ∀ s : State, ∃ (t : State) (r : Nat), exec .sqrt s = .next t ∧
    (s.build.prec = .low → FloorRoot (16 * s.opa.toNat) r ∧
      (s.opa.toNat < 67108864 → NoError s t) ∧ (67108864 ≤ s.opa.toNat → Recorded 10 0x07 0 s t)) ∧
    (s.build.prec = .normal → FloorRoot (256 * s.opa.toNat) r ∧
      (s.opa.toNat < 4194304 → NoError s t) ∧ (4194304 ≤ s.opa.toNat → Recorded 10 0x07 0 s t)) ∧
    t.res = BitVec.ofInt 32 (narrow16 r) ∧ ArithFrame s t

/-- R93: DIST. The differences wrap to 16 bits, their squares are scaled and stay wide, their sum is at most 2^26,
and the result is the narrowed floor root (16·s in LOW, 256·s in NORMAL, R91). -/
def Obligations.DistIsRootOfWideSum : Prop :=
  encode .dist = 0x00000008#32 ∧
  ∀ s : State, ∃ (t : State) (dx dy sum : Int) (r : Nat), exec .dist s = .next t ∧
    dx = narrowSigned s.opa - narrowSigned s.opc ∧ dy = narrowSigned s.opb - narrowSigned s.opd ∧
    sum = narrow16 dx * narrow16 dx / s.build.prec.fix + narrow16 dy * narrow16 dy / s.build.prec.fix ∧
    sum ≤ 2 ^ 26 ∧
    (s.build.prec = .low → FloorRoot (16 * sum.toNat) r) ∧
    (s.build.prec = .normal → FloorRoot (256 * sum.toNat) r) ∧
    t.res = BitVec.ofInt 32 (narrow16 r) ∧
    ((-32768 ≤ dx ∧ dx ≤ 32767) ∧ (-32768 ≤ dy ∧ dy ≤ 32767) ∧ r ≤ 32767 → NoError s t) ∧
    ((dx < -32768 ∨ 32767 < dx) ∨ (dy < -32768 ∨ 32767 < dy) ∨ 32767 < r → Recorded 10 0x08 0 s t) ∧
    ArithFrame s t

/-- The corner cases of R93: RES is the same for either order of the two points, and a point is at distance 0 from
itself, with no flag. E_OV and ERRINFO are the same for either order when no difference is -32768 or 32768: the first
fits 16 bits and the second does not, so there R93's pseudocode makes E_OV depend on the order (log entry 18). -/
def Obligations.DistIsSymmetric : Prop :=
  ∀ s : State, ∃ t u v,
    exec .dist s = .next t ∧
    exec .dist { s with opa := s.opc, opb := s.opd, opc := s.opa, opd := s.opb } = .next u ∧
    exec .dist { s with opc := s.opa, opd := s.opb } = .next v ∧
    u.res = t.res ∧ v.res = 0#32 ∧ NoError s v ∧
    ((narrowSigned s.opa - narrowSigned s.opc).natAbs ≠ 32768 →
      (narrowSigned s.opb - narrowSigned s.opd).natAbs ≠ 32768 → NoError t u)

/-! Compositor -/

/-- R48: two bytes that exist have two places, a place lies inside the buffer, and the linear address of a byte of
LIVE is LIVE_BASE + ((p - 1) · NUM_ROWS + r) · LINEBYTES + b. That this order is the buffers' key is the model's choice
(log entry 8). -/
def Obligations.BufferPlacesAreDistinct : Prop :=
  ∀ (g : Params) (p r b p' r' b' : Nat), cellExists g p r b = true →
    cellIndex g p r b < bufferSize g ∧
    liveAddress g p r b = g.liveBase + ((p - 1) * g.numRows + r) * g.lineBytes + b ∧
    (cellExists g p' r' b' = true → cellIndex g p r b = cellIndex g p' r' b' → p = p' ∧ r = r' ∧ b = b')

/-- R130, R45, R48: every byte of LIVE has a platform address outside the register window. That LIVE_BASE is a build's
in every case, linear or not, is the model's reading (log entry 22). -/
def Obligations.LiveLiesOutsideWindow : Prop :=
  ∀ (b : Build) (p r c : Nat), cellExists b.toParams p r c = true →
    windowOffset b.toParams (liveAddress b.toParams p r c) = none

/-- R101: FBEGIN clears every byte of TGT and nothing else. -/
def Obligations.FbeginClearsTarget : Prop :=
  encode .fbegin = 0x00000010#32 ∧
  ∀ s : State, ∃ t, exec .fbegin s = .next t ∧ PlotFrame s t ∧
    (∀ p r b, cellExists s.build.toParams p r b = true →
      readByte (target t) (cellIndex s.build.toParams p r b) = 0#8) ∧
    (∀ a, bufferSize s.build.toParams ≤ a → readByte (target t) a = readByte (target s) a) ∧
    (s.build.doubleBuffer = true → ∀ a, readByte t.live a = readByte s.live a) ∧
    (s.build.doubleBuffer = false → ∀ a, readByte t.off a = readByte s.off a)

/-- R102: PLOT. A coordinate out of range raises E_COORD, whatever the level; a level out of [1, NUMPLANES] raises
E_LVL; and then nothing is written. Otherwise, in each plane p of 1..NUMPLANES the byte c div 8 of the row gets the
pixel's mask set for p ≤ L and cleared above, every other byte of TGT and all of the other buffer are as before, and
nothing else changes. TGT is in canonical form, which every step keeps (StepKeepsInvariant). -/
def Obligations.PlotMarksEveryPlane : Prop :=
  encode .plot = 0x00000011#32 ∧
  ∀ s : State, s.off.wf → s.live.wf → ∃ t, exec .plot s = .next t ∧
    (s.build.numCols ≤ narrowUnsigned s.opa ∨ s.build.numRows ≤ narrowUnsigned s.opb → Aborted 11 0x11 0 s t) ∧
    (narrowUnsigned s.opa < s.build.numCols → narrowUnsigned s.opb < s.build.numRows →
      narrowUnsigned s.opc < 1 ∨ s.build.numPlanes < narrowUnsigned s.opc → Aborted 12 0x11 0 s t) ∧
    (narrowUnsigned s.opa < s.build.numCols → narrowUnsigned s.opb < s.build.numRows →
      1 ≤ narrowUnsigned s.opc → narrowUnsigned s.opc ≤ s.build.numPlanes →
      PlotFrame s t ∧
      (∀ p, 1 ≤ p → p ≤ s.build.numPlanes →
        ∀ a, a = cellIndex s.build.toParams p (narrowUnsigned s.opb) (narrowUnsigned s.opa / 8) →
          (p ≤ narrowUnsigned s.opc → readByte (target t) a =
            readByte (target s) a ||| pixelMaskAt s.build (narrowUnsigned s.opa % 8)) ∧
          (narrowUnsigned s.opc < p → readByte (target t) a =
            readByte (target s) a &&& ~~~ pixelMaskAt s.build (narrowUnsigned s.opa % 8))) ∧
      (∀ a, (∀ p, 1 ≤ p → p ≤ s.build.numPlanes →
          a ≠ cellIndex s.build.toParams p (narrowUnsigned s.opb) (narrowUnsigned s.opa / 8)) →
        readByte (target t) a = readByte (target s) a) ∧
      (s.build.doubleBuffer = true → ∀ a, readByte t.live a = readByte s.live a) ∧
      (s.build.doubleBuffer = false → ∀ a, readByte t.off a = readByte s.off a))

/-- The plane encoding of R109 and the pixels R102 leaves alone: after a PLOT that completes, the pixel is lit in TGT
in plane p of 1..NUMPLANES exactly when p ≤ L, and every other pixel of the display is lit in each plane exactly as
before. -/
def Obligations.PlotEncodesLevelInPlanes : Prop :=
  ∀ s : State, s.off.wf → s.live.wf →
    narrowUnsigned s.opa < s.build.numCols → narrowUnsigned s.opb < s.build.numRows →
    1 ≤ narrowUnsigned s.opc → narrowUnsigned s.opc ≤ s.build.numPlanes →
    ∃ t, exec .plot s = .next t ∧
      ∀ p c r, 1 ≤ p → p ≤ s.build.numPlanes → c < s.build.numCols → r < s.build.numRows →
        (c = narrowUnsigned s.opa ∧ r = narrowUnsigned s.opb →
          (pixelLit s.build (target t) p c r ↔ p ≤ narrowUnsigned s.opc)) ∧
        (c ≠ narrowUnsigned s.opa ∨ r ≠ narrowUnsigned s.opb →
          (pixelLit s.build (target t) p c r ↔ pixelLit s.build (target s) p c r))

/-- R103: FCOMMIT copies every byte of OFF into LIVE when DOUBLE_BUFFER = ON, copies nothing otherwise, and counts in
both modes. OFF keeps its content, and nothing else changes. -/
def Obligations.FcommitPublishesFrame : Prop :=
  encode .fcommit = 0x00000012#32 ∧
  ∀ s : State, ∃ t, exec .fcommit s = .next t ∧
    (s.build.doubleBuffer = true → ∀ p r b, cellExists s.build.toParams p r b = true →
      readByte t.live (cellIndex s.build.toParams p r b) = readByte s.off (cellIndex s.build.toParams p r b)) ∧
    (∀ a, s.build.doubleBuffer = false ∨ bufferSize s.build.toParams ≤ a → readByte t.live a = readByte s.live a) ∧
    (∀ a, readByte t.off a = readByte s.off a) ∧
    t.commits.toNat = (s.commits.toNat + 1) % 2 ^ 32 ∧
    t.res = s.res ∧ NoError s t ∧ SameOperands s t ∧ SameSequence s t ∧ SameAround s t

/-! Sequencer -/

/-- R105: RSTART. It raises E_SEQ while a sequence runs, whatever the step, else E_TD0 for a zero step, and then
nothing else changes. Otherwise T, TSTOP, TDELTA and DELAY take the operands; RUN is 1 and RDONE 0 for a range that is
not empty (t < t_stop for a positive step, t > t_stop for a negative one), and RUN is 0 and RDONE 1 for an empty one;
nothing else changes. -/
def Obligations.RstartStartsSequence : Prop :=
  encode .rstart = 0x00000020#32 ∧
  ∀ s : State, ∃ t, exec .rstart s = .next t ∧
    (s.run = true → Aborted 14 0x20 0 s t) ∧
    (s.run = false → narrowSigned s.opc = 0 → Aborted 13 0x20 0 s t) ∧
    (s.run = false → narrowSigned s.opc ≠ 0 →
      t.t.toInt = narrowSigned s.opa ∧ t.tstop.toInt = narrowSigned s.opb ∧ t.tdelta.toInt = narrowSigned s.opc ∧
      t.delay.toNat = narrowUnsigned s.opd ∧
      ((0 < narrowSigned s.opc ∧ narrowSigned s.opa < narrowSigned s.opb) ∨
        (narrowSigned s.opc < 0 ∧ narrowSigned s.opb < narrowSigned s.opa) → t.run = true ∧ t.rdone = false) ∧
      ((0 < narrowSigned s.opc ∧ narrowSigned s.opb ≤ narrowSigned s.opa) ∨
        (narrowSigned s.opc < 0 ∧ narrowSigned s.opa ≤ narrowSigned s.opb) → t.run = false ∧ t.rdone = true) ∧
      t.busy = s.busy ∧ t.wcnt = s.wcnt ∧ t.commits = s.commits ∧ t.res = s.res ∧
      NoError s t ∧ SameOperands s t ∧ SameBytes s t ∧ SameAround s t)

/-- R106: RNEXT while a sequence runs commits the frame, steps the sequence on the exact sum, and starts the delay;
while none runs it raises E_SEQ and nothing else changes. -/
def Obligations.RnextEndsTimeStep : Prop :=
  encode .rnext = 0x00000021#32 ∧
  ∀ s : State, ∃ t, exec .rnext s = .next t ∧
    (s.run = false → Aborted 14 0x21 0 s t) ∧
    (s.run = true →
      (s.build.doubleBuffer = true → ∀ p r b, cellExists s.build.toParams p r b = true →
        readByte t.live (cellIndex s.build.toParams p r b) = readByte s.off (cellIndex s.build.toParams p r b)) ∧
      (∀ a, s.build.doubleBuffer = false ∨ bufferSize s.build.toParams ≤ a →
        readByte t.live a = readByte s.live a) ∧
      (∀ a, readByte t.off a = readByte s.off a) ∧
      t.commits.toNat = (s.commits.toNat + 1) % 2 ^ 32 ∧
      (∀ tn : Int, tn = s.t.toInt + s.tdelta.toInt →
        (inRange s.tdelta.toInt s.tstop.toInt tn = true →
          t.t.toInt = tn ∧ t.run = true ∧ t.rdone = s.rdone) ∧
        (inRange s.tdelta.toInt s.tstop.toInt tn = false →
          t.t = s.t ∧ t.run = false ∧ t.rdone = true)) ∧
      t.wcnt = s.delay ∧ (t.busy = true ↔ s.delay ≠ 0#16) ∧
      t.tstop = s.tstop ∧ t.tdelta = s.tdelta ∧ t.delay = s.delay ∧ t.res = s.res ∧
      NoError s t ∧ SameOperands s t ∧ SameAround s t)

/-- R107: a TICK step counts WCNT down by one and clears BUSY when it reaches 0; with WCNT = 0 it changes nothing. -/
def Obligations.TickCountsDelayDown : Prop :=
  ∀ (s : State) (ts : List Turn),
    (s.wcnt = 0#16 → step { s with turns := .tick :: ts } = .next { s with turns := ts }) ∧
    (s.wcnt ≠ 0#16 → ∃ t, step { s with turns := .tick :: ts } = .next t ∧
      t = { s with turns := ts, wcnt := t.wcnt, busy := t.busy } ∧
      t.wcnt.toNat + 1 = s.wcnt.toNat ∧ t.busy = (s.busy && decide (t.wcnt ≠ 0#16)))

/-- The delay of R107 and R145: from a state of the invariant, BUSY stays 1 for exactly WCNT TICK steps. -/
def Obligations.DelayLastsWcntTicks : Prop :=
  ∀ (s : State) (n : Nat), Inv s →
    ((afterTicks n s).busy = true ↔ n < s.wcnt.toNat) ∧ (afterTicks n s).wcnt.toNat = s.wcnt.toNat - n

/-- The frame count of R109: a sequence started by an accepted RSTART performs exactly n frames, n the ceiling of the
range over the step, at the times ts + i·td, and commits n times. -/
def Obligations.SequencePerformsFrameCount : Prop :=
  ∀ s : State, s.run = false → narrowSigned s.opc ≠ 0 → ∃ t, exec .rstart s = .next t ∧
    ∀ n, n = frameCount (narrowSigned s.opa) (narrowSigned s.opb) (narrowSigned s.opc) → n ≤ 65535 ∧
      (∀ i, i < n → ∃ u, afterRnexts i t = some u ∧ u.run = true ∧
        u.t.toInt = narrowSigned s.opa + i * narrowSigned s.opc ∧
        u.commits.toNat = (s.commits.toNat + i) % 2 ^ 32) ∧
      ∃ u, afterRnexts n t = some u ∧ u.run = false ∧ u.rdone = true ∧
        u.commits.toNat = (s.commits.toNat + n) % 2 ^ 32

/-! The register window -/

/-- R110: NOP has no effect. -/
def Obligations.NopChangesNothing : Prop :=
  encode .nop = 0x00000000#32 ∧ ∀ s : State, ∃ t, exec .nop s = .next t ∧ t = s

/-- R21 and R45: the sixteen registers stand at the word offsets 0x00 to 0x3C in the order of the table, and an
address in [BASE, BASE + 0x40) is the offset addr - BASE, while an address outside is none of the window. -/
def Obligations.WindowHoldsSixteenRegisters : Prop :=
  ([Reg.cmd, .status, .opa, .opb, .opc, .opd, .res, .t, .tstop, .tdelta, .delay, .wcnt, .commits, .errinfo,
    .config0, .config1] : List Reg).map (fun r => r.offset.toNat) =
      [0x00, 0x04, 0x08, 0x0C, 0x10, 0x14, 0x18, 0x1C, 0x20, 0x24, 0x28, 0x2C, 0x30, 0x34, 0x38, 0x3C] ∧
  (∀ r : Reg, regAt r.offset = r) ∧
  ∀ (g : Params) (addr : Nat),
    (∀ k : BitVec 6, windowOffset g addr = some k ↔ addr = g.base + k.toNat) ∧
    (windowOffset g addr = none ↔ addr < g.base ∨ g.base + 0x40 ≤ addr)

/-- R111, R28, R24: what a legal host read of each register returns, even while BUSY = 1. The whole next state is
given, so a read changes nothing. No CMD write is held: behind one the read would wait (log entry 5). -/
def Obligations.HostReadReturnsRegister : Prop :=
  ∀ (s : State) (r : Reg) (ops : List HostOp) (ts : List Turn), s.held = none → ∃ v : Word,
    step { s with host := .read r.offset .word :: ops, turns := .host :: ts } =
      .next { s with host := ops, turns := ts, readData := some v } ∧
    (r = .cmd → v = 0#32) ∧
    (r = .status → v.toNat = s.busy.toNat + 2 * s.run.toNat + 4 * s.rdone.toNat +
      (if s.errors = 0#8 then 0 else 8) + 256 * s.errors.toNat) ∧
    (r = .opa → v = s.opa) ∧ (r = .opb → v = s.opb) ∧ (r = .opc → v = s.opc) ∧ (r = .opd → v = s.opd) ∧
    (r = .res → v = s.res) ∧ (r = .t → v.toInt = s.t.toInt) ∧ (r = .tstop → v.toInt = s.tstop.toInt) ∧
    (r = .tdelta → v.toInt = s.tdelta.toInt) ∧ (r = .delay → v.toNat = s.delay.toNat) ∧
    (r = .wcnt → v.toNat = s.wcnt.toNat) ∧ (r = .commits → v = s.commits) ∧
    (r = .errinfo → v.toNat = s.errinfo.toNat) ∧
    (r = .config0 → v = config0Word s.build.toParams) ∧ (r = .config1 → v = config1Word s.build.toParams)

/-- R67: a poll reads STATUS like any read, and it stays in front of the host's accesses while BUSY = 1 and ends on the
read with BUSY = 0. From a state of the invariant with no turn listed, it ends WCNT + 1 steps on, after the delay. No
CMD write is held (log entry 5). That a poll is one access of the host is the model's form (log entry 20), and that the
milliseconds pass before it reads when no turn is listed is the model's choice (log entry 4). -/
def Obligations.PollEndsWhenIdle : Prop :=
  ∀ (s : State) (ops : List HostOp) (ts : List Turn), s.held = none →
    (∃ v : Word, step { s with host := .poll :: ops, turns := .host :: ts } =
        .next { s with
          host := if s.busy then .poll :: ops else ops, turns := ts, readData := some v } ∧
      v.toNat = s.busy.toNat + 2 * s.run.toNat + 4 * s.rdone.toNat +
        (if s.errors = 0#8 then 0 else 8) + 256 * s.errors.toNat) ∧
    (Inv s → ∃ v : Word, Sys2Proof.core.run (s.wcnt.toNat + 1) { s with host := .poll :: ops, turns := [] } =
        .next { s with
          host := ops, turns := [], wcnt := 0#16, busy := false, readData := some v } ∧
      v.toNat = 2 * s.run.toNat + 4 * s.rdone.toNat +
        (if s.errors = 0#8 then 0 else 8) + 256 * s.errors.toNat)

/-- R34: the fields of CONFIG0 and CONFIG1 are the build's own parameters, whole, and no step changes them. -/
def Obligations.ConfigReportsBuild : Prop :=
  (∀ s : State, ∀ c0 c1 : Word, c0 = readReg .config0 s → c1 = readReg .config1 s →
    (c0.getLsbD 0 = true ↔ s.build.prec = .low) ∧ c0.getLsbD 1 = s.build.doubleBuffer ∧ c0.extractLsb' 2 6 = 0#6 ∧
    (c0.extractLsb' 8 8).toNat = s.build.numPlanes ∧ (c0.extractLsb' 16 8).toNat = s.build.numRows ∧
    c0.extractLsb' 24 8 = 0#8 ∧
    (c1.extractLsb' 0 8).toNat = s.build.numCols ∧ (c1.extractLsb' 8 8).toNat = s.build.lineBytes ∧
    c1.extractLsb' 16 16 = 0#16) ∧
  ∀ s t : State, step s = .next t → ∀ r : Reg, r = .config0 ∨ r = .config1 → readReg r t = readReg r s

/-- R112: a legal host write to a register other than CMD and STATUS. The operand registers take the word, even
while BUSY = 1; a write to a read-only register has no effect and no error. The whole next state is given. No CMD
write is held: behind one this write would wait (log entry 5). -/
def Obligations.HostWriteSetsOperandsOnly : Prop :=
  ∀ (s : State) (r : Reg) (w : Word) (ops : List HostOp) (ts : List Turn), s.held = none → r ≠ .cmd → r ≠ .status →
    step { s with host := .write r.offset .word w :: ops, turns := .host :: ts } =
      .next { s with
        host := ops, turns := ts,
        opa := if r = .opa then w else s.opa, opb := if r = .opb then w else s.opb,
        opc := if r = .opc then w else s.opc, opd := if r = .opd then w else s.opd }

/-- R114: a STATUS write of w clears error bit i of 8..15 exactly where w[i] = 1, and changes nothing else, even
while BUSY = 1. No CMD write is held: behind one this write would wait (log entry 5). -/
def Obligations.StatusWriteClearsWrittenOnes : Prop :=
  ∀ (s : State) (w : Word) (ops : List HostOp) (ts : List Turn), s.held = none → ∃ t,
    step { s with host := .write 0x04#6 .word w :: ops, turns := .host :: ts } = .next t ∧
    t = { s with host := ops, turns := ts, errors := t.errors } ∧
    ∀ i, i < 8 → t.errors.getLsbD i = (s.errors.getLsbD i && !w.getLsbD (8 + i))

/-- R46: an access that is not 32 bits wide, or not at a multiple of 4, raises E_BUS with its offset, even while
BUSY = 1. A write changes nothing else; a read returns 0. The whole next state is given. No CMD write is held: behind
one this access would wait (log entry 5). -/
def Obligations.IllegalAccessRaisesEBus : Prop :=
  ∀ (s : State) (k : BitVec 6) (width : Width) (w : Word) (ops : List HostOp) (ts : List Turn), s.held = none →
    width ≠ .word ∨ k.toNat % 4 ≠ 0 →
    step { s with host := .write k width w :: ops, turns := .host :: ts } =
      .next { s with
        host := ops, turns := ts, errors := s.errors ||| 0x80#8,
        errinfo := BitVec.ofNat 24 (k.toNat * 65536 + 0x0F00) } ∧
    step { s with host := .read k width :: ops, turns := .host :: ts } =
      .next { s with
        host := ops, turns := ts, errors := s.errors ||| 0x80#8,
        errinfo := BitVec.ofNat 24 (k.toNat * 65536 + 0x0F00), readData := some 0#32 }

/-- R113: a CMD write while BUSY = 1 is held, with no effect on FPCORE, and the host has no step for it while BUSY = 1.
That the host then has no step at all, so that its remaining accesses, reads included, wait behind the held write, is
the model's deduction from R51's order of accesses, and the field that keeps the write is the model's (log entry 5). -/
def Obligations.CommandWriteIsHeldWhileBusy : Prop :=
  ∀ (s : State) (w : Word) (ops : List HostOp) (ts : List Turn), s.busy = true →
    (s.held = none → step { s with host := .write 0x00#6 .word w :: ops, turns := .host :: ts } =
      .next { s with host := ops, turns := ts, held := some w }) ∧
    step { s with held := some w, host := ops, turns := .host :: ts } =
      .next { s with held := some w, host := ops, turns := ts }

/-- The hold of R113 ends: from a state of the invariant with a held write and no turn listed, after WCNT steps the
delay is over, and the next step performs the held command. That time passes when no turn is listed and the host only
waits is the model's choice (log entry 4). That the host's remaining accesses, reads included, wait behind the held
write, so that nothing else changes meanwhile, is the model's deduction from R51 (log entry 5). -/
def Obligations.HeldCommandRunsAfterDelay : Prop :=
  ∀ (s : State) (w : Word) (i : Instr), Inv s → s.held = some w → s.turns = [] → decode w = .ok i →
    Sys2Proof.core.run s.wcnt.toNat s = .next { s with wcnt := 0#16, busy := false } ∧
    Sys2Proof.core.run (s.wcnt.toNat + 1) s = exec i { s with wcnt := 0#16, busy := false, held := none }

/-- SCAN (R20, R49): it reads a byte of LIVE that exists and changes nothing; a byte that does not exist is a
fault, which is the model's choice (log entry 7). -/
def Obligations.ScanReadsLiveOnly : Prop :=
  ∀ (s : State) (p r b : Nat) (ts : List Turn),
    (1 ≤ p ∧ p ≤ s.build.numPlanes ∧ r < s.build.numRows ∧ b < s.build.lineBytes →
      step { s with turns := .scan p r b :: ts } =
        .next { s with
          turns := ts, scanData := some (readByte s.live (((p - 1) * s.build.numRows + r) * s.build.lineBytes + b)) }) ∧
    (p < 1 ∨ s.build.numPlanes < p ∨ s.build.numRows ≤ r ∨ s.build.lineBytes ≤ b →
      step { s with turns := .scan p r b :: ts } = .fault (.noSuchLiveByte p r b))

/-! Reset -/

/-- R140 and R43: the reset event, from any state. Every register and STATUS field is 0, OFF is all zero, a held CMD
write is dropped, and LIVE and the build (with the sine table and the CONFIG constants) are unchanged. -/
def Obligations.ResetEventClearsAllButLive : Prop :=
  ∀ (s : State) (ts : List Turn), ∃ t, step { s with turns := .reset :: ts } = .next t ∧
    (∀ r : Reg, r ≠ .config0 → r ≠ .config1 → readReg r t = 0#32) ∧
    t.build = s.build ∧ (∀ a, readByte t.off a = 0#8) ∧ (∀ a, readByte t.live a = readByte s.live a) ∧
    t.held = none

/-- R43 and R38: the machine right after reset reads 0 in every register but CONFIG0 and CONFIG1, OFF is all zero, and
every byte of LIVE that exists holds LIVE_INIT. The build and LIVE_INIT are open, and the environment of the reset state
is the model's (log entries 1, 2, 21). -/
def Obligations.ResetStateValues : Prop :=
  (∀ r : Reg, r ≠ .config0 → r ≠ .config1 → readReg r State.reset = 0#32) ∧
  (∀ a, readByte State.reset.off a = 0#8) ∧
  (∀ p r b, cellExists State.reset.build.toParams p r b = true →
    readByte State.reset.live (cellIndex State.reset.build.toParams p r b) =
      Config.liveInit (cellIndex State.reset.build.toParams p r b)) ∧
  State.reset.build = Config.build

/-! The whole machine -/

/-- The invariant holds right after reset. -/
def Obligations.InvariantHoldsAtReset : Prop := Inv State.reset

/-- Every step keeps the invariant: BUSY with WCNT, RUN against RDONE, the running time in range, RES
narrow, ERRINFO naming an error code, and both buffers in canonical form inside their size. The canonical form and the
empty OFF of direct mode are the model's (log entries 8, 15). -/
def Obligations.StepKeepsInvariant : Prop := ∀ s t : State, Inv s → step s = .next t → Inv t

/-- R34 and R39: no step changes the build, so CONFIG0, CONFIG1 and the sine ROM are constant. -/
def Obligations.BuildIsConstant : Prop := ∀ s t : State, step s = .next t → t.build = s.build

/-- R22: commands read the operand registers and never write them. -/
def Obligations.CommandsKeepOperands : Prop := ∀ (i : Instr) (s t : State), exec i s = .next t → SameOperands s t

/-- R29: an error bit that is set and that a step clears was cleared by a legal host write to STATUS with that bit
set, or by reset. -/
def Obligations.ErrorBitsAreSticky : Prop :=
  ∀ (s t : State) (k : Nat), step s = .next t → s.errors.getLsbD k = true → t.errors.getLsbD k = false →
    nextTurn s = .reset ∨
      (nextTurn s = .host ∧ s.held = none ∧
        ∃ w rest, s.host = .write 0x04#6 .word w :: rest ∧ w.getLsbD (8 + k) = true)

/-- R23: no command but the eight arithmetic ones changes RES, and neither does a command that ends in an aborting
error; what the arithmetic ones leave is a sign-extended 16-bit value. -/
def Obligations.OnlyArithmeticWritesResult : Prop :=
  ∀ (i : Instr) (s t : State), exec i s = .next t →
    (i ∉ [Instr.scaleup, .scaledn, .mul, .div, .sin, .cos, .sqrt, .dist] → t.res = s.res) ∧
    (i = .div → s.opb = 0#32 → t.res = s.res) ∧
    (i ∈ [Instr.scaleup, .scaledn, .mul, .sin, .cos, .sqrt, .dist] ∨ (i = .div ∧ s.opb ≠ 0#32) →
      ∃ v : Half, t.res = v.signExtend 32)

/-- R26: only RSTART, RNEXT and reset change RUN. -/
def Obligations.OnlySequencerChangesRun : Prop :=
  ∀ s t : State, step s = .next t → t.run ≠ s.run →
    nextTurn s = .reset ∨
      (nextTurn s = .host ∧ s.busy = false ∧
        ∃ w, (s.held = some w ∨ (s.held = none ∧ ∃ rest, s.host = .write 0x00#6 .word w :: rest)) ∧
          (w = encode .rstart ∨ w = encode .rnext))

/-- R52, commit atomicity: with DOUBLE_BUFFER = ON, a step either leaves every byte of LIVE as it was, or it is a
commit: COMMITS counts one, OFF is unchanged, and every byte of LIVE that exists is the byte of OFF. -/
def Obligations.LiveChangesOnlyByCommit : Prop :=
  ∀ s t : State, s.build.doubleBuffer = true → step s = .next t →
    (∀ a, readByte t.live a = readByte s.live a) ∨
    (t.commits = s.commits + 1#32 ∧ t.off = s.off ∧
      ∀ p r b, cellExists s.build.toParams p r b = true →
        readByte t.live (cellIndex s.build.toParams p r b) = readByte s.off (cellIndex s.build.toParams p r b))

/-- R53, direct mode: with DOUBLE_BUFFER = OFF, only FBEGIN and PLOT change LIVE, and no command uses OFF: a command
leaves it as it was, and with any other content there it answers the same in every other field. A direct build has no
OFF (R37), and the field it has here is the model's (log entry 15). -/
def Obligations.DirectModeWritesLiveOnly : Prop :=
  ∀ (i : Instr) (s t : State), s.build.doubleBuffer = false → exec i s = .next t →
    t.off = s.off ∧ (i ≠ .fbegin → i ≠ .plot → t.live = s.live) ∧
    ∀ m : Memory, exec i { s with off := m } = .next { t with off := m }

/-- R33: COMMITS is changed only by FCOMMIT and by an RNEXT that completes, by one mod 2^32. -/
def Obligations.CommitsCountsFrames : Prop :=
  ∀ (i : Instr) (s t : State), exec i s = .next t →
    (i = .fcommit ∨ (i = .rnext ∧ s.run = true) → t.commits.toNat = (s.commits.toNat + 1) % 2 ^ 32) ∧
    (i ≠ .fcommit → ¬ (i = .rnext ∧ s.run = true) → t.commits = s.commits)

/-- R120, R121: which commands record which error. A command that records no error leaves the error bits and ERRINFO
alone, and one that does sets one bit and writes ERRINFO with its own opcode and offset 0. -/
def Obligations.EachCommandRecordsItsOwnErrors : Prop :=
  ∀ (i : Instr) (s t : State), exec i s = .next t →
    NoError s t ∨ ∃ code,
      ((code = 9 ∧ i = .div) ∨
        (code = 10 ∧ i ∈ [Instr.scaleup, .mul, .div, .cos, .sqrt, .dist]) ∨
        (code = 11 ∧ i = .plot) ∨ (code = 12 ∧ i = .plot) ∨ (code = 13 ∧ i = .rstart) ∨
        (code = 14 ∧ (i = .rstart ∨ i = .rnext))) ∧
      Recorded code i.opcode.toNat 0 s t
end

