-- ==== Sys2Proof/Laws/Arith.lean ====
section
/-! SUPPORT. The number facts behind the arithmetic commands: the operand forms' ranges, narrowing, the two
roundings of R17, and the wide multiply of R72. -/

namespace Sys2Proof.Machine

theorem fits16_iff (v : Int) : fits16 v = true ↔ -32768 ≤ v ∧ v ≤ 32767 := by simp [fits16]

theorem fits16_eq_false_iff (v : Int) : fits16 v = false ↔ v < -32768 ∨ 32767 < v := by
  rw [← Bool.not_eq_true, fits16_iff]; omega

/-- A 16-bit value's range. -/
theorem half_toInt_range (h : Half) : -32768 ≤ h.toInt ∧ h.toInt ≤ 32767 := by
  have h1 := BitVec.le_toInt h
  have h2 := BitVec.toInt_lt (x := h)
  norm_num at h1 h2
  omega

theorem narrowSigned_range (x : Word) : -32768 ≤ narrowSigned x ∧ narrowSigned x ≤ 32767 := half_toInt_range _

theorem narrowUnsigned_lt (x : Word) : narrowUnsigned x < 65536 := (x.extractLsb' 0 16).isLt

theorem narrow16_range (v : Int) : -32768 ≤ narrow16 v ∧ narrow16 v ≤ 32767 := half_toInt_range _

theorem narrow16_of_fits {v : Int} (h1 : -32768 ≤ v) (h2 : v ≤ 32767) : narrow16 v = v := by
  unfold narrow16
  rw [BitVec.toInt_ofInt]
  exact Int.bmod_eq_of_le (by omega) (by omega)

/-- `s32` of a narrowed value is the sign extension of its 16 bits. -/
theorem ofInt_narrow16 (v : Int) : BitVec.ofInt 32 (narrow16 v) = (BitVec.ofInt 16 v).signExtend 32 := rfl

theorem narrow16_toInt (h : Half) : narrow16 h.toInt = h.toInt := by
  have := half_toInt_range h
  exact narrow16_of_fits this.1 this.2

theorem narrow16_congr {a b : Int} (h : a % 65536 = b % 65536) : narrow16 a = narrow16 b := by
  unfold narrow16
  rw [BitVec.toInt_ofInt, BitVec.toInt_ofInt, Int.bmod_def, Int.bmod_def]
  norm_num
  rw [h]

theorem s32_of_fits {v : Int} (h1 : -2 ^ 31 ≤ v) (h2 : v < 2 ^ 31) : s32 v = v := by
  unfold s32
  rw [BitVec.toInt_ofInt]
  exact Int.bmod_eq_of_le (by norm_num at *; omega) (by norm_num at *; omega)

theorem s32_range (v : Int) : -2 ^ 31 ≤ s32 v ∧ s32 v < 2 ^ 31 := by
  have h1 := BitVec.le_toInt (BitVec.ofInt 32 v)
  have h2 := BitVec.toInt_lt (x := BitVec.ofInt 32 v)
  unfold s32
  omega

/-- `s32` changes a value exactly when it does not fit 32 bits. -/
theorem s32_eq_iff (v : Int) : s32 v = v ↔ -2 ^ 31 ≤ v ∧ v < 2 ^ 31 :=
  ⟨fun h => h ▸ s32_range v, fun h => s32_of_fits h.1 h.2⟩

theorem truncatedQuotient_tdiv (a d : Int) (h : d ≠ 0) : TruncatedQuotient a d (a.tdiv d) := by
  refine ⟨a.tmod d, ?_, ?_, ?_⟩
  · have h2 := Int.mul_tdiv_add_tmod a d
    rw [mul_comm]; omega
  · rw [Int.natAbs_tmod]
    exact Nat.mod_lt _ (by omega)
  · rcases Int.le_total 0 a with ha | ha
    · exact mul_nonneg (Int.tmod_nonneg d ha) ha
    · have : (a.tmod d) ≤ 0 := by
        have h3 := Int.tmod_nonneg d (a := -a) (by omega)
        rw [Int.neg_tmod] at h3; omega
      exact mul_nonneg_of_nonpos_of_nonpos this ha

theorem flooredQuotient_ediv (a d : Int) (h : 0 < d) : FlooredQuotient a d (a / d) :=
  ⟨Int.ediv_mul_le a (by omega), Int.lt_ediv_add_one_mul_self a h⟩

theorem flooredQuotient_fdiv (a d : Int) (h : 0 < d) : FlooredQuotient a d (a.fdiv d) := by
  rw [Int.fdiv_eq_ediv_of_nonneg a (by omega)]
  exact flooredQuotient_ediv a d h

/-- The floor quotient is unique. -/
theorem flooredQuotient_unique {a d q r : Int} (h1 : FlooredQuotient a d q) (h2 : FlooredQuotient a d r) (h : 0 < d) :
    q = r := by
  obtain ⟨ha, hb⟩ := h1
  obtain ⟨hc, he⟩ := h2
  have h3 : q < r + 1 := by
    by_contra hn
    have : (r + 1) * d ≤ q * d := Int.mul_le_mul_of_nonneg_right (by omega) (by omega)
    omega
  have h4 : r < q + 1 := by
    by_contra hn
    have : (q + 1) * d ≤ r * d := Int.mul_le_mul_of_nonneg_right (by omega) (by omega)
    omega
  omega

theorem u32_mul_u32 (a b : Int) : u32 (u32 a * u32 b) = (a * b) % 2 ^ 32 := by
  unfold u32
  exact (Int.mul_emod a b (2 ^ 32)).symm

/-- The product of two 16-bit values is at most 2^30 in size. -/
theorem product_bound {a b : Int} (ha : -32768 ≤ a ∧ a ≤ 32767) (hb : -32768 ≤ b ∧ b ≤ 32767) :
    -(2 ^ 30) ≤ a * b ∧ a * b ≤ 2 ^ 30 := by
  constructor <;> nlinarith [ha.1, ha.2, hb.1, hb.2]

/-- MULW in LOW differs from the floor quotient by a multiple of 2^27 (R72). -/
theorem mulw_low_eq {a b : Int} (ha : -32768 ≤ a ∧ a ≤ 32767) (hb : -32768 ≤ b ∧ b ≤ 32767) :
    mulw .low a b = a * b / 32 + (if a * b < 0 then 2 ^ 27 else 0) := by
  have hp := product_bound ha hb
  simp only [mulw, u32_mul_u32]
  generalize a * b = p at hp ⊢
  split <;> omega

theorem mulw_of_nonneg {a b : Int} (ha : -32768 ≤ a ∧ a ≤ 32767) (hb : -32768 ≤ b ∧ b ≤ 32767) (h : 0 ≤ a * b)
    (p : Prec) : mulw p a b = a * b / (p.fix : Int) := by
  cases p with
  | low => rw [mulw_low_eq ha hb, if_neg (by omega)]; simp [Prec.fix]
  | normal =>
    simp only [mulw, Prec.fix]
    rw [Int.tdiv_eq_ediv_of_nonneg h]; rfl

/-- The square of a narrowed difference, scaled: the form DIST uses (R93). -/
theorem mulw_self (p : Prec) (v : Int) (hv : -32768 ≤ v ∧ v ≤ 32767) :
    mulw p v v = v * v / (p.fix : Int) ∧ 0 ≤ mulw p v v ∧ mulw p v v ≤ 2 ^ 25 := by
  have hn : 0 ≤ v * v := mul_self_nonneg v
  have hb := (product_bound hv hv).2
  have h := mulw_of_nonneg hv hv hn p
  refine ⟨h, ?_, ?_⟩ <;> rw [h] <;> cases p <;> simp only [Prec.fix] <;> omega

/-- LOW's quotient and when it overflows (R74). -/
theorem divide_low (a b : Word) :
    (divide .low a b).2 = ((a.toNat * 32 % 2 ^ 32 / b.toNat : Nat) : Int) ∧
      ((divide .low a b).1 = true ↔ 2 ^ 32 ≤ a.toNat * 32 ∨ 32767 < a.toNat * 32 % 2 ^ 32 / b.toNat) := by
  refine ⟨rfl, ?_⟩
  change (divLow a.toNat b.toNat).1 = true ↔ _
  simp only [divLow, Bool.or_eq_true, decide_eq_true_eq]

/-- NORMAL's quotient and when it overflows (R74). -/
theorem divide_normal (a b : Word) :
    (divide .normal a b).2 = (s32 (a.toInt * 256)).tdiv b.toInt ∧
      ((divide .normal a b).1 = true ↔ s32 (a.toInt * 256) ≠ a.toInt * 256 ∨
        (s32 (a.toInt * 256)).tdiv b.toInt < -32768 ∨ 32767 < (s32 (a.toInt * 256)).tdiv b.toInt) := by
  refine ⟨rfl, ?_⟩
  change (divNormal a.toInt b.toInt).1 = true ↔ _
  simp only [divNormal, Bool.or_eq_true, Bool.not_eq_true', fits16_eq_false_iff, ne_eq, s32_eq_iff]
  rw [← Bool.not_eq_true, Bool.and_eq_true, decide_eq_true_eq, decide_eq_true_eq]

/-- A word that is not 0 is not 0 as a number of either sign. -/
theorem word_ne_zero {w : Word} (h : w ≠ 0#32) : 0 < w.toNat ∧ w.toInt ≠ 0 := by
  constructor
  · rcases Nat.eq_zero_or_pos w.toNat with h0 | h0
    · exact absurd (BitVec.eq_of_toNat_eq (by simpa using h0)) h
    · exact h0
  · intro h0
    exact h (BitVec.eq_of_toInt_eq (by simpa using h0))

end Sys2Proof.Machine
end

