-- ==== Sys2Proof/Laws/Memory.lean ====
section
/-! SUPPORT. The laws of the frame buffers: reading after each operation, and that each operation keeps the
canonical form and stays inside the buffer. -/

namespace Sys2Proof.Machine

/-! Reading. -/

theorem readByte_of_lt {m : Memory} {a : Nat} (h : ∀ c ∈ m, a < c.1) : readByte m a = 0#8 := by
  induction m with
  | nil => rfl
  | cons c rest ih =>
    have h1 := h c (by simp)
    simp only [readByte]
    rw [if_neg (by omega)]
    exact ih fun d hd => h d (by simp [hd])

theorem readByte_of_not_listed {m : Memory} {a : Nat} (h : ∀ c ∈ m, c.1 ≠ a) : readByte m a = 0#8 := by
  induction m with
  | nil => rfl
  | cons c rest ih =>
    simp only [readByte]
    rw [if_neg (h c (by simp))]
    exact ih fun d hd => h d (by simp [hd])

theorem readByte_consCell (a : Nat) (v : Byte) (m : Memory) (x : Nat) (h : ∀ c ∈ m, a < c.1) :
    readByte (consCell a v m) x = if x = a then v else readByte m x := by
  unfold consCell
  split
  · split
    · next hv hx => subst hx hv; exact readByte_of_lt h
    · rfl
  · simp only [readByte]
    by_cases hx : x = a
    · simp [hx]
    · rw [if_neg (by omega), if_neg hx]

/-- A buffer in rising order reads, after a write, the new byte at that place and the old bytes elsewhere. -/
theorem readByte_writeByte {m : Memory} (hm : m.Pairwise (fun c d => c.1 < d.1)) (a : Nat) (v : Byte) (x : Nat) :
    readByte (writeByte m a v) x = if x = a then v else readByte m x := by
  induction m with
  | nil => exact readByte_consCell a v [] x (by simp)
  | cons c rest ih =>
    obtain ⟨k, w⟩ := c
    rw [List.pairwise_cons] at hm
    simp only [writeByte]
    split
    · next hlt =>
      refine readByte_consCell a v _ x ?_
      intro d hd
      rcases List.mem_cons.1 hd with rfl | hd
      · exact hlt
      · have := hm.1 d hd
        simp only at this
        omega
    · split
      · next _ heq =>
        subst heq
        rw [readByte_consCell a v rest x hm.1]
        by_cases hx : x = a
        · simp [hx]
        · simp only [readByte, if_neg hx]
          rw [if_neg (by omega)]
      · next hlt hne =>
        simp only [readByte, ih hm.2]
        by_cases hx : x = a
        · subst hx
          rw [if_neg (by omega), if_pos rfl, if_pos rfl]
        · simp only [if_neg hx]

/-- Clearing the first n places makes them read 0 and leaves the others. -/
theorem readByte_clearBelow (n : Nat) (m : Memory) (x : Nat) :
    readByte (clearBelow n m) x = if x < n then 0#8 else readByte m x := by
  induction m with
  | nil => simp [clearBelow, readByte]
  | cons c rest ih =>
    obtain ⟨k, w⟩ := c
    unfold clearBelow at ih ⊢
    rw [List.filter_cons]
    split
    · next h =>
      simp only [decide_eq_true_eq] at h
      simp only [readByte, ih]
      split <;> split <;> first | rfl | omega
    · next h =>
      simp only [decide_eq_true_eq] at h
      simp only [readByte, ih]
      split
      · rfl
      · rw [if_neg (by omega)]

theorem readByte_append (m n : Memory) (x : Nat) (h : ∀ c ∈ m, c.1 ≠ x) :
    readByte (m ++ n) x = readByte n x := by
  induction m with
  | nil => rfl
  | cons c rest ih =>
    simp only [List.cons_append, readByte]
    rw [if_neg (h c (by simp))]
    exact ih fun d hd => h d (by simp [hd])

theorem readByte_filter_append (n : Nat) (src rest : Memory) (x : Nat) (hx : x < n)
    (hr : readByte rest x = 0#8) :
    readByte ((src.filter fun c => decide (c.1 < n)) ++ rest) x = readByte src x := by
  induction src with
  | nil => simpa [readByte] using hr
  | cons c tl ih =>
    obtain ⟨k, w⟩ := c
    rw [List.filter_cons]
    split
    · simp only [List.cons_append, readByte, ih]
    · next h =>
      simp only [decide_eq_true_eq] at h
      simp only [readByte, ih]
      rw [if_neg (by omega)]

/-- Copying the first n places makes them read as the source does and leaves the others. -/
theorem readByte_copyBelow (n : Nat) (src dst : Memory) (x : Nat) :
    readByte (copyBelow n src dst) x = if x < n then readByte src x else readByte dst x := by
  unfold copyBelow
  have hclear := readByte_clearBelow n dst x
  unfold clearBelow at hclear
  split
  · next h =>
    rw [if_pos h] at hclear
    exact readByte_filter_append n src _ x h hclear
  · next h =>
    rw [if_neg h] at hclear
    rw [readByte_append, hclear]
    intro c hc
    have := (List.mem_filter.1 hc).2
    simp only [decide_eq_true_eq] at this
    omega

theorem mem_consCell {a : Nat} {v : Byte} {m : Memory} {c : Host.Cell} (h : c ∈ consCell a v m) :
    (c = (a, v) ∧ v ≠ 0#8) ∨ c ∈ m := by
  unfold consCell at h
  split at h
  · exact .inr h
  · next hv =>
    rcases List.mem_cons.1 h with rfl | h
    · exact .inl ⟨rfl, hv⟩
    · exact .inr h

theorem tabulateFrom_ge (f : Nat → Byte) (n : Nat) : ∀ a, ∀ c ∈ tabulateFrom f a n, a ≤ c.1 := by
  induction n with
  | zero => intro a c hc; simp [tabulateFrom] at hc
  | succ n ih =>
    intro a c hc
    rcases mem_consCell hc with ⟨rfl, _⟩ | hc
    · exact Nat.le_refl _
    · have := ih (a + 1) c hc; omega

/-- A tabulated buffer reads as the function inside its range, and 0 outside. -/
theorem readByte_tabulateFrom (f : Nat → Byte) (n : Nat) :
    ∀ a x, readByte (tabulateFrom f a n) x = if a ≤ x ∧ x < a + n then f x else 0#8 := by
  induction n with
  | zero => intro a x; simp only [tabulateFrom, readByte]; rw [if_neg (by omega)]
  | succ n ih =>
    intro a x
    rw [tabulateFrom, readByte_consCell, ih]
    · by_cases hx : x = a
      · subst hx; rw [if_pos rfl, if_pos (by omega)]
      · rw [if_neg hx]; congr 1; simp only [eq_iff_iff]; omega
    · intro c hc; have := tabulateFrom_ge f n (a + 1) c hc; omega

/-! The canonical form. -/

theorem wf_nil : Memory.wf [] := by simp [Memory.wf]

theorem wf_consCell {a : Nat} {v : Byte} {m : Memory} (hm : m.wf) (h : ∀ c ∈ m, a < c.1) : (consCell a v m).wf := by
  unfold consCell
  split
  · exact hm
  · next hv =>
    refine ⟨List.pairwise_cons.2 ⟨h, hm.1⟩, ?_⟩
    intro c hc
    rcases List.mem_cons.1 hc with rfl | hc
    · exact hv
    · exact hm.2 c hc

theorem mem_writeByte {m : Memory} {a : Nat} {v : Byte} {c : Host.Cell} (h : c ∈ writeByte m a v) :
    (c = (a, v) ∧ v ≠ 0#8) ∨ c ∈ m := by
  induction m with
  | nil => exact (mem_consCell h).imp_right (by simp)
  | cons d rest ih =>
    obtain ⟨k, w⟩ := d
    simp only [writeByte] at h
    split at h
    · exact mem_consCell h
    · split at h
      · exact (mem_consCell h).imp_right (List.mem_cons_of_mem _)
      · rcases List.mem_cons.1 h with rfl | h
        · exact .inr (by simp)
        · exact (ih h).imp_right (List.mem_cons_of_mem _)

theorem wf_writeByte {m : Memory} (hm : m.wf) (a : Nat) (v : Byte) : (writeByte m a v).wf := by
  induction m with
  | nil => exact wf_consCell wf_nil (by simp)
  | cons d rest ih =>
    obtain ⟨k, w⟩ := d
    have hp := List.pairwise_cons.1 hm.1
    have hrest : Memory.wf rest := ⟨hp.2, fun c hc => hm.2 c (by simp [hc])⟩
    simp only [writeByte]
    split
    · next hlt =>
      refine wf_consCell hm ?_
      intro c hc
      rcases List.mem_cons.1 hc with rfl | hc
      · exact hlt
      · exact Nat.lt_trans hlt (hp.1 c hc)
    · split
      · next _ heq => subst heq; exact wf_consCell hrest hp.1
      · next hlt hne =>
        have ihr := ih hrest
        refine ⟨List.pairwise_cons.2 ⟨?_, ihr.1⟩, ?_⟩
        · intro c hc
          rcases mem_writeByte hc with ⟨rfl, _⟩ | hc
          · show k < a; omega
          · exact hp.1 c hc
        · intro c hc
          rcases List.mem_cons.1 hc with rfl | hc
          · exact hm.2 _ (by simp)
          · exact ihr.2 c hc

theorem wf_clearBelow {m : Memory} (hm : m.wf) (n : Nat) : (clearBelow n m).wf :=
  ⟨hm.1.filter _, fun c hc => hm.2 c (List.mem_filter.1 hc).1⟩

theorem wf_copyBelow {src dst : Memory} (hs : src.wf) (hd : dst.wf) (n : Nat) : (copyBelow n src dst).wf := by
  refine ⟨List.pairwise_append.2 ⟨hs.1.filter _, hd.1.filter _, ?_⟩, ?_⟩
  · intro c hc d hd
    have h1 := (List.mem_filter.1 hc).2
    have h2 := (List.mem_filter.1 hd).2
    simp only [decide_eq_true_eq] at h1 h2
    omega
  · intro c hc
    rcases List.mem_append.1 hc with hc | hc
    · exact hs.2 c (List.mem_filter.1 hc).1
    · exact hd.2 c (List.mem_filter.1 hc).1

theorem wf_tabulateFrom (f : Nat → Byte) (n : Nat) : ∀ a, (tabulateFrom f a n).wf := by
  induction n with
  | zero => intro a; exact wf_nil
  | succ n ih =>
    intro a
    exact wf_consCell (ih (a + 1)) fun c hc => by have := tabulateFrom_ge f n (a + 1) c hc; omega

/-! Staying inside the buffer. -/

theorem within_writeByte {m : Memory} {n : Nat} (hm : m.within n) {a : Nat} (ha : a < n) (v : Byte) :
    (writeByte m a v).within n := by
  intro c hc
  rcases mem_writeByte hc with ⟨rfl, _⟩ | hc
  · exact ha
  · exact hm c hc

theorem within_clearBelow {m : Memory} {n : Nat} (hm : m.within n) (k : Nat) : (clearBelow k m).within n :=
  fun c hc => hm c (List.mem_filter.1 hc).1

theorem within_copyBelow {src dst : Memory} {n : Nat} (hs : src.within n) (hd : dst.within n) (k : Nat) :
    (copyBelow k src dst).within n := by
  intro c hc
  rcases List.mem_append.1 hc with hc | hc
  · exact hs c (List.mem_filter.1 hc).1
  · exact hd c (List.mem_filter.1 hc).1

theorem within_tabulateFrom (f : Nat → Byte) (n : Nat) : ∀ a, (tabulateFrom f a n).within (a + n) := by
  induction n with
  | zero => intro a c hc; simp [tabulateFrom] at hc
  | succ n ih =>
    intro a c hc
    rcases mem_consCell hc with ⟨rfl, _⟩ | hc
    · show a < a + (n + 1); omega
    · have := ih (a + 1) c hc; omega

/-- A buffer that reads the same everywhere as another in canonical form is the same list. -/
theorem eq_of_readByte {m n : Memory} (hm : m.wf) (hn : n.wf) (h : ∀ x, readByte m x = readByte n x) : m = n := by
  induction m generalizing n with
  | nil =>
    cases n with
    | nil => rfl
    | cons d rest =>
      have := h d.1
      simp only [readByte] at this
      exact absurd this.symm (by simpa using hn.2 d (by simp))
  | cons c tl ih =>
    obtain ⟨k, v⟩ := c
    have hpm := List.pairwise_cons.1 hm.1
    cases n with
    | nil =>
      have := h k
      simp only [readByte] at this
      exact absurd this (by simpa using hm.2 (k, v) (by simp))
    | cons d rest =>
      obtain ⟨k', v'⟩ := d
      have hpn := List.pairwise_cons.1 hn.1
      have hv := hm.2 (k, v) (by simp)
      have hv' := hn.2 (k', v') (by simp)
      have hk : k = k' := by
        rcases Nat.lt_trichotomy k k' with hlt | heq | hlt
        · have h1 := h k
          rw [readByte_of_lt (m := (k', v') :: rest)] at h1
          · simp only [readByte, if_true] at h1; exact absurd h1 hv
          · intro c hc
            rcases List.mem_cons.1 hc with rfl | hc
            · exact hlt
            · exact Nat.lt_trans hlt (hpn.1 c hc)
        · exact heq
        · have h1 := h k'
          rw [readByte_of_lt (m := (k, v) :: tl)] at h1
          · simp only [readByte, if_true] at h1; exact absurd h1.symm hv'
          · intro c hc
            rcases List.mem_cons.1 hc with rfl | hc
            · exact hlt
            · exact Nat.lt_trans hlt (hpm.1 c hc)
      subst hk
      have hvv : v = v' := by have := h k; simpa [readByte] using this
      subst hvv
      congr 1
      refine ih ⟨hpm.2, fun c hc => hm.2 c (by simp [hc])⟩ ⟨hpn.2, fun c hc => hn.2 c (by simp [hc])⟩ ?_
      intro x
      by_cases hx : k = x
      · subst hx; rw [readByte_of_lt hpm.1, readByte_of_lt hpn.1]
      · have := h x
        simpa only [readByte, if_neg hx] using this

/-! The places of bytes. -/

/-- A byte that exists lies inside the buffer. -/
theorem cellIndex_lt {g : Params} {p r b : Nat} (h : cellExists g p r b = true) : cellIndex g p r b < bufferSize g := by
  simp only [cellExists, Bool.and_eq_true, decide_eq_true_eq] at h
  obtain ⟨⟨⟨hp1, hp⟩, hr⟩, hb⟩ := h
  unfold cellIndex bufferSize
  have h1 : (p - 1) * g.numRows + r + 1 ≤ g.numPlanes * g.numRows := by
    calc (p - 1) * g.numRows + r + 1 ≤ (p - 1) * g.numRows + g.numRows := by omega
      _ = (p - 1 + 1) * g.numRows := by ring
      _ ≤ g.numPlanes * g.numRows := Nat.mul_le_mul_right _ (by omega)
  calc ((p - 1) * g.numRows + r) * g.lineBytes + b
      < ((p - 1) * g.numRows + r) * g.lineBytes + g.lineBytes := by omega
    _ = ((p - 1) * g.numRows + r + 1) * g.lineBytes := by ring
    _ ≤ g.numPlanes * g.numRows * g.lineBytes := Nat.mul_le_mul_right _ h1

theorem mul_add_lt_cancel {k a b c d : Nat} (hb : b < k) (hd : d < k) (h : a * k + b = c * k + d) : a = c ∧ b = d := by
  have hk : 0 < k := by omega
  have h1 : (a * k + b) / k = (c * k + d) / k := by rw [h]
  have h2 : (a * k + b) % k = (c * k + d) % k := by rw [h]
  rw [Nat.add_comm (a * k), Nat.add_comm (c * k), Nat.add_mul_div_right _ _ hk, Nat.add_mul_div_right _ _ hk,
    Nat.div_eq_of_lt hb, Nat.div_eq_of_lt hd] at h1
  rw [Nat.add_comm (a * k), Nat.add_comm (c * k), Nat.add_mul_mod_self_right, Nat.add_mul_mod_self_right,
    Nat.mod_eq_of_lt hb, Nat.mod_eq_of_lt hd] at h2
  omega

/-- Two triples with rows and bytes in range and planes from 1 on that name one place are one triple. -/
theorem cellIndex_inj {g : Params} {p r b p' r' b' : Nat} (hp : 1 ≤ p) (hp' : 1 ≤ p') (hr : r < g.numRows)
    (hr' : r' < g.numRows) (hb : b < g.lineBytes) (hb' : b' < g.lineBytes)
    (h : cellIndex g p r b = cellIndex g p' r' b') : p = p' ∧ r = r' ∧ b = b' := by
  unfold cellIndex at h
  obtain ⟨h1, h2⟩ := mul_add_lt_cancel hb hb' h
  obtain ⟨h3, h4⟩ := mul_add_lt_cancel hr hr' h1
  omega

end Sys2Proof.Machine
end

