-- ==== Sys2Proof/Laws/State.lean ====
section
/-! SUPPORT. What each state update does to each field, one lemma a field, so that no later proof unfolds an
update. -/

namespace Sys2Proof.Machine

variable (s : State)

/-! raise -/

@[simp] theorem raise_build (e : ErrorCode) (o f : Byte) : (raise e o f s).build = s.build := rfl
@[simp] theorem raise_opa (e : ErrorCode) (o f : Byte) : (raise e o f s).opa = s.opa := rfl
@[simp] theorem raise_opb (e : ErrorCode) (o f : Byte) : (raise e o f s).opb = s.opb := rfl
@[simp] theorem raise_opc (e : ErrorCode) (o f : Byte) : (raise e o f s).opc = s.opc := rfl
@[simp] theorem raise_opd (e : ErrorCode) (o f : Byte) : (raise e o f s).opd = s.opd := rfl
@[simp] theorem raise_res (e : ErrorCode) (o f : Byte) : (raise e o f s).res = s.res := rfl
@[simp] theorem raise_busy (e : ErrorCode) (o f : Byte) : (raise e o f s).busy = s.busy := rfl
@[simp] theorem raise_run (e : ErrorCode) (o f : Byte) : (raise e o f s).run = s.run := rfl
@[simp] theorem raise_rdone (e : ErrorCode) (o f : Byte) : (raise e o f s).rdone = s.rdone := rfl
@[simp] theorem raise_errors (e : ErrorCode) (o f : Byte) : (raise e o f s).errors = s.errors ||| e.mask := rfl
@[simp] theorem raise_t (e : ErrorCode) (o f : Byte) : (raise e o f s).t = s.t := rfl
@[simp] theorem raise_tstop (e : ErrorCode) (o f : Byte) : (raise e o f s).tstop = s.tstop := rfl
@[simp] theorem raise_tdelta (e : ErrorCode) (o f : Byte) : (raise e o f s).tdelta = s.tdelta := rfl
@[simp] theorem raise_delay (e : ErrorCode) (o f : Byte) : (raise e o f s).delay = s.delay := rfl
@[simp] theorem raise_wcnt (e : ErrorCode) (o f : Byte) : (raise e o f s).wcnt = s.wcnt := rfl
@[simp] theorem raise_commits (e : ErrorCode) (o f : Byte) : (raise e o f s).commits = s.commits := rfl
@[simp] theorem raise_errinfo (e : ErrorCode) (o f : Byte) : (raise e o f s).errinfo = errinfoOf f e.code o := rfl
@[simp] theorem raise_off (e : ErrorCode) (o f : Byte) : (raise e o f s).off = s.off := rfl
@[simp] theorem raise_live (e : ErrorCode) (o f : Byte) : (raise e o f s).live = s.live := rfl
@[simp] theorem raise_held (e : ErrorCode) (o f : Byte) : (raise e o f s).held = s.held := rfl
@[simp] theorem raise_host (e : ErrorCode) (o f : Byte) : (raise e o f s).host = s.host := rfl
@[simp] theorem raise_turns (e : ErrorCode) (o f : Byte) : (raise e o f s).turns = s.turns := rfl
@[simp] theorem raise_readData (e : ErrorCode) (o f : Byte) : (raise e o f s).readData = s.readData := rfl
@[simp] theorem raise_scanData (e : ErrorCode) (o f : Byte) : (raise e o f s).scanData = s.scanData := rfl

/-! abort -/

@[simp] theorem abort_build (e : ErrorCode) (i : Instr) : (abort e i s).build = s.build := rfl
@[simp] theorem abort_opa (e : ErrorCode) (i : Instr) : (abort e i s).opa = s.opa := rfl
@[simp] theorem abort_opb (e : ErrorCode) (i : Instr) : (abort e i s).opb = s.opb := rfl
@[simp] theorem abort_opc (e : ErrorCode) (i : Instr) : (abort e i s).opc = s.opc := rfl
@[simp] theorem abort_opd (e : ErrorCode) (i : Instr) : (abort e i s).opd = s.opd := rfl
@[simp] theorem abort_res (e : ErrorCode) (i : Instr) : (abort e i s).res = s.res := rfl
@[simp] theorem abort_busy (e : ErrorCode) (i : Instr) : (abort e i s).busy = s.busy := rfl
@[simp] theorem abort_run (e : ErrorCode) (i : Instr) : (abort e i s).run = s.run := rfl
@[simp] theorem abort_rdone (e : ErrorCode) (i : Instr) : (abort e i s).rdone = s.rdone := rfl
@[simp] theorem abort_errors (e : ErrorCode) (i : Instr) : (abort e i s).errors = s.errors ||| e.mask := rfl
@[simp] theorem abort_t (e : ErrorCode) (i : Instr) : (abort e i s).t = s.t := rfl
@[simp] theorem abort_tstop (e : ErrorCode) (i : Instr) : (abort e i s).tstop = s.tstop := rfl
@[simp] theorem abort_tdelta (e : ErrorCode) (i : Instr) : (abort e i s).tdelta = s.tdelta := rfl
@[simp] theorem abort_delay (e : ErrorCode) (i : Instr) : (abort e i s).delay = s.delay := rfl
@[simp] theorem abort_wcnt (e : ErrorCode) (i : Instr) : (abort e i s).wcnt = s.wcnt := rfl
@[simp] theorem abort_commits (e : ErrorCode) (i : Instr) : (abort e i s).commits = s.commits := rfl
@[simp] theorem abort_errinfo (e : ErrorCode) (i : Instr) : (abort e i s).errinfo = errinfoOf 0#8 e.code i.opcode := rfl
@[simp] theorem abort_off (e : ErrorCode) (i : Instr) : (abort e i s).off = s.off := rfl
@[simp] theorem abort_live (e : ErrorCode) (i : Instr) : (abort e i s).live = s.live := rfl
@[simp] theorem abort_held (e : ErrorCode) (i : Instr) : (abort e i s).held = s.held := rfl
@[simp] theorem abort_host (e : ErrorCode) (i : Instr) : (abort e i s).host = s.host := rfl
@[simp] theorem abort_turns (e : ErrorCode) (i : Instr) : (abort e i s).turns = s.turns := rfl
@[simp] theorem abort_readData (e : ErrorCode) (i : Instr) : (abort e i s).readData = s.readData := rfl
@[simp] theorem abort_scanData (e : ErrorCode) (i : Instr) : (abort e i s).scanData = s.scanData := rfl

/-! setResult -/

@[simp] theorem setResult_build (v : Int) : (setResult v s).build = s.build := rfl
@[simp] theorem setResult_opa (v : Int) : (setResult v s).opa = s.opa := rfl
@[simp] theorem setResult_opb (v : Int) : (setResult v s).opb = s.opb := rfl
@[simp] theorem setResult_opc (v : Int) : (setResult v s).opc = s.opc := rfl
@[simp] theorem setResult_opd (v : Int) : (setResult v s).opd = s.opd := rfl
@[simp] theorem setResult_res (v : Int) : (setResult v s).res = BitVec.ofInt 32 v := rfl
@[simp] theorem setResult_busy (v : Int) : (setResult v s).busy = s.busy := rfl
@[simp] theorem setResult_run (v : Int) : (setResult v s).run = s.run := rfl
@[simp] theorem setResult_rdone (v : Int) : (setResult v s).rdone = s.rdone := rfl
@[simp] theorem setResult_errors (v : Int) : (setResult v s).errors = s.errors := rfl
@[simp] theorem setResult_t (v : Int) : (setResult v s).t = s.t := rfl
@[simp] theorem setResult_tstop (v : Int) : (setResult v s).tstop = s.tstop := rfl
@[simp] theorem setResult_tdelta (v : Int) : (setResult v s).tdelta = s.tdelta := rfl
@[simp] theorem setResult_delay (v : Int) : (setResult v s).delay = s.delay := rfl
@[simp] theorem setResult_wcnt (v : Int) : (setResult v s).wcnt = s.wcnt := rfl
@[simp] theorem setResult_commits (v : Int) : (setResult v s).commits = s.commits := rfl
@[simp] theorem setResult_errinfo (v : Int) : (setResult v s).errinfo = s.errinfo := rfl
@[simp] theorem setResult_off (v : Int) : (setResult v s).off = s.off := rfl
@[simp] theorem setResult_live (v : Int) : (setResult v s).live = s.live := rfl
@[simp] theorem setResult_held (v : Int) : (setResult v s).held = s.held := rfl
@[simp] theorem setResult_host (v : Int) : (setResult v s).host = s.host := rfl
@[simp] theorem setResult_turns (v : Int) : (setResult v s).turns = s.turns := rfl
@[simp] theorem setResult_readData (v : Int) : (setResult v s).readData = s.readData := rfl
@[simp] theorem setResult_scanData (v : Int) : (setResult v s).scanData = s.scanData := rfl

/-! flagOv -/

@[simp] theorem flagOv_build (i : Instr) (ov : Bool) : (flagOv i ov s).build = s.build := by unfold flagOv; split <;> rfl
@[simp] theorem flagOv_opa (i : Instr) (ov : Bool) : (flagOv i ov s).opa = s.opa := by unfold flagOv; split <;> rfl
@[simp] theorem flagOv_opb (i : Instr) (ov : Bool) : (flagOv i ov s).opb = s.opb := by unfold flagOv; split <;> rfl
@[simp] theorem flagOv_opc (i : Instr) (ov : Bool) : (flagOv i ov s).opc = s.opc := by unfold flagOv; split <;> rfl
@[simp] theorem flagOv_opd (i : Instr) (ov : Bool) : (flagOv i ov s).opd = s.opd := by unfold flagOv; split <;> rfl
@[simp] theorem flagOv_res (i : Instr) (ov : Bool) : (flagOv i ov s).res = s.res := by unfold flagOv; split <;> rfl
@[simp] theorem flagOv_busy (i : Instr) (ov : Bool) : (flagOv i ov s).busy = s.busy := by unfold flagOv; split <;> rfl
@[simp] theorem flagOv_run (i : Instr) (ov : Bool) : (flagOv i ov s).run = s.run := by unfold flagOv; split <;> rfl
@[simp] theorem flagOv_rdone (i : Instr) (ov : Bool) : (flagOv i ov s).rdone = s.rdone := by unfold flagOv; split <;> rfl
@[simp] theorem flagOv_errors (i : Instr) (ov : Bool) : (flagOv i ov s).errors = if ov then s.errors ||| ErrorCode.ov.mask else s.errors := by unfold flagOv; split <;> rfl
@[simp] theorem flagOv_t (i : Instr) (ov : Bool) : (flagOv i ov s).t = s.t := by unfold flagOv; split <;> rfl
@[simp] theorem flagOv_tstop (i : Instr) (ov : Bool) : (flagOv i ov s).tstop = s.tstop := by unfold flagOv; split <;> rfl
@[simp] theorem flagOv_tdelta (i : Instr) (ov : Bool) : (flagOv i ov s).tdelta = s.tdelta := by unfold flagOv; split <;> rfl
@[simp] theorem flagOv_delay (i : Instr) (ov : Bool) : (flagOv i ov s).delay = s.delay := by unfold flagOv; split <;> rfl
@[simp] theorem flagOv_wcnt (i : Instr) (ov : Bool) : (flagOv i ov s).wcnt = s.wcnt := by unfold flagOv; split <;> rfl
@[simp] theorem flagOv_commits (i : Instr) (ov : Bool) : (flagOv i ov s).commits = s.commits := by unfold flagOv; split <;> rfl
@[simp] theorem flagOv_errinfo (i : Instr) (ov : Bool) : (flagOv i ov s).errinfo = if ov then errinfoOf 0#8 ErrorCode.ov.code i.opcode else s.errinfo := by unfold flagOv; split <;> rfl
@[simp] theorem flagOv_off (i : Instr) (ov : Bool) : (flagOv i ov s).off = s.off := by unfold flagOv; split <;> rfl
@[simp] theorem flagOv_live (i : Instr) (ov : Bool) : (flagOv i ov s).live = s.live := by unfold flagOv; split <;> rfl
@[simp] theorem flagOv_held (i : Instr) (ov : Bool) : (flagOv i ov s).held = s.held := by unfold flagOv; split <;> rfl
@[simp] theorem flagOv_host (i : Instr) (ov : Bool) : (flagOv i ov s).host = s.host := by unfold flagOv; split <;> rfl
@[simp] theorem flagOv_turns (i : Instr) (ov : Bool) : (flagOv i ov s).turns = s.turns := by unfold flagOv; split <;> rfl
@[simp] theorem flagOv_readData (i : Instr) (ov : Bool) : (flagOv i ov s).readData = s.readData := by unfold flagOv; split <;> rfl
@[simp] theorem flagOv_scanData (i : Instr) (ov : Bool) : (flagOv i ov s).scanData = s.scanData := by unfold flagOv; split <;> rfl

/-! finish -/

@[simp] theorem finish_build (i : Instr) (ov : Bool) (v : Int) : (finish i ov v s).build = s.build := by unfold finish flagOv; split <;> rfl
@[simp] theorem finish_opa (i : Instr) (ov : Bool) (v : Int) : (finish i ov v s).opa = s.opa := by unfold finish flagOv; split <;> rfl
@[simp] theorem finish_opb (i : Instr) (ov : Bool) (v : Int) : (finish i ov v s).opb = s.opb := by unfold finish flagOv; split <;> rfl
@[simp] theorem finish_opc (i : Instr) (ov : Bool) (v : Int) : (finish i ov v s).opc = s.opc := by unfold finish flagOv; split <;> rfl
@[simp] theorem finish_opd (i : Instr) (ov : Bool) (v : Int) : (finish i ov v s).opd = s.opd := by unfold finish flagOv; split <;> rfl
@[simp] theorem finish_res (i : Instr) (ov : Bool) (v : Int) : (finish i ov v s).res = BitVec.ofInt 32 (narrow16 v) := by unfold finish flagOv; split <;> rfl
@[simp] theorem finish_busy (i : Instr) (ov : Bool) (v : Int) : (finish i ov v s).busy = s.busy := by unfold finish flagOv; split <;> rfl
@[simp] theorem finish_run (i : Instr) (ov : Bool) (v : Int) : (finish i ov v s).run = s.run := by unfold finish flagOv; split <;> rfl
@[simp] theorem finish_rdone (i : Instr) (ov : Bool) (v : Int) : (finish i ov v s).rdone = s.rdone := by unfold finish flagOv; split <;> rfl
@[simp] theorem finish_errors (i : Instr) (ov : Bool) (v : Int) : (finish i ov v s).errors = if ov then s.errors ||| ErrorCode.ov.mask else s.errors := by unfold finish flagOv; split <;> rfl
@[simp] theorem finish_t (i : Instr) (ov : Bool) (v : Int) : (finish i ov v s).t = s.t := by unfold finish flagOv; split <;> rfl
@[simp] theorem finish_tstop (i : Instr) (ov : Bool) (v : Int) : (finish i ov v s).tstop = s.tstop := by unfold finish flagOv; split <;> rfl
@[simp] theorem finish_tdelta (i : Instr) (ov : Bool) (v : Int) : (finish i ov v s).tdelta = s.tdelta := by unfold finish flagOv; split <;> rfl
@[simp] theorem finish_delay (i : Instr) (ov : Bool) (v : Int) : (finish i ov v s).delay = s.delay := by unfold finish flagOv; split <;> rfl
@[simp] theorem finish_wcnt (i : Instr) (ov : Bool) (v : Int) : (finish i ov v s).wcnt = s.wcnt := by unfold finish flagOv; split <;> rfl
@[simp] theorem finish_commits (i : Instr) (ov : Bool) (v : Int) : (finish i ov v s).commits = s.commits := by unfold finish flagOv; split <;> rfl
@[simp] theorem finish_errinfo (i : Instr) (ov : Bool) (v : Int) : (finish i ov v s).errinfo = if ov then errinfoOf 0#8 ErrorCode.ov.code i.opcode else s.errinfo := by unfold finish flagOv; split <;> rfl
@[simp] theorem finish_off (i : Instr) (ov : Bool) (v : Int) : (finish i ov v s).off = s.off := by unfold finish flagOv; split <;> rfl
@[simp] theorem finish_live (i : Instr) (ov : Bool) (v : Int) : (finish i ov v s).live = s.live := by unfold finish flagOv; split <;> rfl
@[simp] theorem finish_held (i : Instr) (ov : Bool) (v : Int) : (finish i ov v s).held = s.held := by unfold finish flagOv; split <;> rfl
@[simp] theorem finish_host (i : Instr) (ov : Bool) (v : Int) : (finish i ov v s).host = s.host := by unfold finish flagOv; split <;> rfl
@[simp] theorem finish_turns (i : Instr) (ov : Bool) (v : Int) : (finish i ov v s).turns = s.turns := by unfold finish flagOv; split <;> rfl
@[simp] theorem finish_readData (i : Instr) (ov : Bool) (v : Int) : (finish i ov v s).readData = s.readData := by unfold finish flagOv; split <;> rfl
@[simp] theorem finish_scanData (i : Instr) (ov : Bool) (v : Int) : (finish i ov v s).scanData = s.scanData := by unfold finish flagOv; split <;> rfl

/-! setTarget -/

@[simp] theorem setTarget_build (m : Memory) : (setTarget m s).build = s.build := by unfold setTarget; split <;> rfl
@[simp] theorem setTarget_opa (m : Memory) : (setTarget m s).opa = s.opa := by unfold setTarget; split <;> rfl
@[simp] theorem setTarget_opb (m : Memory) : (setTarget m s).opb = s.opb := by unfold setTarget; split <;> rfl
@[simp] theorem setTarget_opc (m : Memory) : (setTarget m s).opc = s.opc := by unfold setTarget; split <;> rfl
@[simp] theorem setTarget_opd (m : Memory) : (setTarget m s).opd = s.opd := by unfold setTarget; split <;> rfl
@[simp] theorem setTarget_res (m : Memory) : (setTarget m s).res = s.res := by unfold setTarget; split <;> rfl
@[simp] theorem setTarget_busy (m : Memory) : (setTarget m s).busy = s.busy := by unfold setTarget; split <;> rfl
@[simp] theorem setTarget_run (m : Memory) : (setTarget m s).run = s.run := by unfold setTarget; split <;> rfl
@[simp] theorem setTarget_rdone (m : Memory) : (setTarget m s).rdone = s.rdone := by unfold setTarget; split <;> rfl
@[simp] theorem setTarget_errors (m : Memory) : (setTarget m s).errors = s.errors := by unfold setTarget; split <;> rfl
@[simp] theorem setTarget_t (m : Memory) : (setTarget m s).t = s.t := by unfold setTarget; split <;> rfl
@[simp] theorem setTarget_tstop (m : Memory) : (setTarget m s).tstop = s.tstop := by unfold setTarget; split <;> rfl
@[simp] theorem setTarget_tdelta (m : Memory) : (setTarget m s).tdelta = s.tdelta := by unfold setTarget; split <;> rfl
@[simp] theorem setTarget_delay (m : Memory) : (setTarget m s).delay = s.delay := by unfold setTarget; split <;> rfl
@[simp] theorem setTarget_wcnt (m : Memory) : (setTarget m s).wcnt = s.wcnt := by unfold setTarget; split <;> rfl
@[simp] theorem setTarget_commits (m : Memory) : (setTarget m s).commits = s.commits := by unfold setTarget; split <;> rfl
@[simp] theorem setTarget_errinfo (m : Memory) : (setTarget m s).errinfo = s.errinfo := by unfold setTarget; split <;> rfl
@[simp] theorem setTarget_off (m : Memory) : (setTarget m s).off = if s.build.doubleBuffer then m else s.off := by unfold setTarget; split <;> rfl
@[simp] theorem setTarget_live (m : Memory) : (setTarget m s).live = if s.build.doubleBuffer then s.live else m := by unfold setTarget; split <;> rfl
@[simp] theorem setTarget_held (m : Memory) : (setTarget m s).held = s.held := by unfold setTarget; split <;> rfl
@[simp] theorem setTarget_host (m : Memory) : (setTarget m s).host = s.host := by unfold setTarget; split <;> rfl
@[simp] theorem setTarget_turns (m : Memory) : (setTarget m s).turns = s.turns := by unfold setTarget; split <;> rfl
@[simp] theorem setTarget_readData (m : Memory) : (setTarget m s).readData = s.readData := by unfold setTarget; split <;> rfl
@[simp] theorem setTarget_scanData (m : Memory) : (setTarget m s).scanData = s.scanData := by unfold setTarget; split <;> rfl

/-! commitFrame -/

@[simp] theorem commitFrame_build : (commitFrame s).build = s.build := by unfold commitFrame copyFrame; split <;> rfl
@[simp] theorem commitFrame_opa : (commitFrame s).opa = s.opa := by unfold commitFrame copyFrame; split <;> rfl
@[simp] theorem commitFrame_opb : (commitFrame s).opb = s.opb := by unfold commitFrame copyFrame; split <;> rfl
@[simp] theorem commitFrame_opc : (commitFrame s).opc = s.opc := by unfold commitFrame copyFrame; split <;> rfl
@[simp] theorem commitFrame_opd : (commitFrame s).opd = s.opd := by unfold commitFrame copyFrame; split <;> rfl
@[simp] theorem commitFrame_res : (commitFrame s).res = s.res := by unfold commitFrame copyFrame; split <;> rfl
@[simp] theorem commitFrame_busy : (commitFrame s).busy = s.busy := by unfold commitFrame copyFrame; split <;> rfl
@[simp] theorem commitFrame_run : (commitFrame s).run = s.run := by unfold commitFrame copyFrame; split <;> rfl
@[simp] theorem commitFrame_rdone : (commitFrame s).rdone = s.rdone := by unfold commitFrame copyFrame; split <;> rfl
@[simp] theorem commitFrame_errors : (commitFrame s).errors = s.errors := by unfold commitFrame copyFrame; split <;> rfl
@[simp] theorem commitFrame_t : (commitFrame s).t = s.t := by unfold commitFrame copyFrame; split <;> rfl
@[simp] theorem commitFrame_tstop : (commitFrame s).tstop = s.tstop := by unfold commitFrame copyFrame; split <;> rfl
@[simp] theorem commitFrame_tdelta : (commitFrame s).tdelta = s.tdelta := by unfold commitFrame copyFrame; split <;> rfl
@[simp] theorem commitFrame_delay : (commitFrame s).delay = s.delay := by unfold commitFrame copyFrame; split <;> rfl
@[simp] theorem commitFrame_wcnt : (commitFrame s).wcnt = s.wcnt := by unfold commitFrame copyFrame; split <;> rfl
@[simp] theorem commitFrame_commits : (commitFrame s).commits = s.commits + 1#32 := by unfold commitFrame copyFrame; split <;> rfl
@[simp] theorem commitFrame_errinfo : (commitFrame s).errinfo = s.errinfo := by unfold commitFrame copyFrame; split <;> rfl
@[simp] theorem commitFrame_off : (commitFrame s).off = s.off := by unfold commitFrame copyFrame; split <;> rfl
@[simp] theorem commitFrame_live : (commitFrame s).live = if s.build.doubleBuffer then copyBelow (bufferSize s.build.toParams) s.off s.live else s.live := by unfold commitFrame copyFrame; split <;> rfl
@[simp] theorem commitFrame_held : (commitFrame s).held = s.held := by unfold commitFrame copyFrame; split <;> rfl
@[simp] theorem commitFrame_host : (commitFrame s).host = s.host := by unfold commitFrame copyFrame; split <;> rfl
@[simp] theorem commitFrame_turns : (commitFrame s).turns = s.turns := by unfold commitFrame copyFrame; split <;> rfl
@[simp] theorem commitFrame_readData : (commitFrame s).readData = s.readData := by unfold commitFrame copyFrame; split <;> rfl
@[simp] theorem commitFrame_scanData : (commitFrame s).scanData = s.scanData := by unfold commitFrame copyFrame; split <;> rfl

/-! advance -/

@[simp] theorem advance_build : (advance s).build = s.build := by unfold advance; split <;> rfl
@[simp] theorem advance_opa : (advance s).opa = s.opa := by unfold advance; split <;> rfl
@[simp] theorem advance_opb : (advance s).opb = s.opb := by unfold advance; split <;> rfl
@[simp] theorem advance_opc : (advance s).opc = s.opc := by unfold advance; split <;> rfl
@[simp] theorem advance_opd : (advance s).opd = s.opd := by unfold advance; split <;> rfl
@[simp] theorem advance_res : (advance s).res = s.res := by unfold advance; split <;> rfl
@[simp] theorem advance_busy : (advance s).busy = s.busy := by unfold advance; split <;> rfl
@[simp] theorem advance_run : (advance s).run = if inRange s.tdelta.toInt s.tstop.toInt (nextTime s) then s.run else false := by unfold advance; split <;> rfl
@[simp] theorem advance_rdone : (advance s).rdone = if inRange s.tdelta.toInt s.tstop.toInt (nextTime s) then s.rdone else true := by unfold advance; split <;> rfl
@[simp] theorem advance_errors : (advance s).errors = s.errors := by unfold advance; split <;> rfl
@[simp] theorem advance_t : (advance s).t = if inRange s.tdelta.toInt s.tstop.toInt (nextTime s) then BitVec.ofInt 16 (nextTime s) else s.t := by unfold advance; split <;> rfl
@[simp] theorem advance_tstop : (advance s).tstop = s.tstop := by unfold advance; split <;> rfl
@[simp] theorem advance_tdelta : (advance s).tdelta = s.tdelta := by unfold advance; split <;> rfl
@[simp] theorem advance_delay : (advance s).delay = s.delay := by unfold advance; split <;> rfl
@[simp] theorem advance_wcnt : (advance s).wcnt = s.wcnt := by unfold advance; split <;> rfl
@[simp] theorem advance_commits : (advance s).commits = s.commits := by unfold advance; split <;> rfl
@[simp] theorem advance_errinfo : (advance s).errinfo = s.errinfo := by unfold advance; split <;> rfl
@[simp] theorem advance_off : (advance s).off = s.off := by unfold advance; split <;> rfl
@[simp] theorem advance_live : (advance s).live = s.live := by unfold advance; split <;> rfl
@[simp] theorem advance_held : (advance s).held = s.held := by unfold advance; split <;> rfl
@[simp] theorem advance_host : (advance s).host = s.host := by unfold advance; split <;> rfl
@[simp] theorem advance_turns : (advance s).turns = s.turns := by unfold advance; split <;> rfl
@[simp] theorem advance_readData : (advance s).readData = s.readData := by unfold advance; split <;> rfl
@[simp] theorem advance_scanData : (advance s).scanData = s.scanData := by unfold advance; split <;> rfl

/-! startDelay -/

@[simp] theorem startDelay_build : (startDelay s).build = s.build := rfl
@[simp] theorem startDelay_opa : (startDelay s).opa = s.opa := rfl
@[simp] theorem startDelay_opb : (startDelay s).opb = s.opb := rfl
@[simp] theorem startDelay_opc : (startDelay s).opc = s.opc := rfl
@[simp] theorem startDelay_opd : (startDelay s).opd = s.opd := rfl
@[simp] theorem startDelay_res : (startDelay s).res = s.res := rfl
@[simp] theorem startDelay_busy : (startDelay s).busy = decide (s.delay ≠ 0#16) := rfl
@[simp] theorem startDelay_run : (startDelay s).run = s.run := rfl
@[simp] theorem startDelay_rdone : (startDelay s).rdone = s.rdone := rfl
@[simp] theorem startDelay_errors : (startDelay s).errors = s.errors := rfl
@[simp] theorem startDelay_t : (startDelay s).t = s.t := rfl
@[simp] theorem startDelay_tstop : (startDelay s).tstop = s.tstop := rfl
@[simp] theorem startDelay_tdelta : (startDelay s).tdelta = s.tdelta := rfl
@[simp] theorem startDelay_delay : (startDelay s).delay = s.delay := rfl
@[simp] theorem startDelay_wcnt : (startDelay s).wcnt = s.delay := rfl
@[simp] theorem startDelay_commits : (startDelay s).commits = s.commits := rfl
@[simp] theorem startDelay_errinfo : (startDelay s).errinfo = s.errinfo := rfl
@[simp] theorem startDelay_off : (startDelay s).off = s.off := rfl
@[simp] theorem startDelay_live : (startDelay s).live = s.live := rfl
@[simp] theorem startDelay_held : (startDelay s).held = s.held := rfl
@[simp] theorem startDelay_host : (startDelay s).host = s.host := rfl
@[simp] theorem startDelay_turns : (startDelay s).turns = s.turns := rfl
@[simp] theorem startDelay_readData : (startDelay s).readData = s.readData := rfl
@[simp] theorem startDelay_scanData : (startDelay s).scanData = s.scanData := rfl

/-! tickStep -/

@[simp] theorem tickStep_build : (tickStep s).build = s.build := by unfold tickStep; split <;> rfl
@[simp] theorem tickStep_opa : (tickStep s).opa = s.opa := by unfold tickStep; split <;> rfl
@[simp] theorem tickStep_opb : (tickStep s).opb = s.opb := by unfold tickStep; split <;> rfl
@[simp] theorem tickStep_opc : (tickStep s).opc = s.opc := by unfold tickStep; split <;> rfl
@[simp] theorem tickStep_opd : (tickStep s).opd = s.opd := by unfold tickStep; split <;> rfl
@[simp] theorem tickStep_res : (tickStep s).res = s.res := by unfold tickStep; split <;> rfl
@[simp] theorem tickStep_busy : (tickStep s).busy = if s.wcnt = 0#16 then s.busy else if s.wcnt - 1#16 = 0#16 then false else s.busy := by unfold tickStep; split <;> rfl
@[simp] theorem tickStep_run : (tickStep s).run = s.run := by unfold tickStep; split <;> rfl
@[simp] theorem tickStep_rdone : (tickStep s).rdone = s.rdone := by unfold tickStep; split <;> rfl
@[simp] theorem tickStep_errors : (tickStep s).errors = s.errors := by unfold tickStep; split <;> rfl
@[simp] theorem tickStep_t : (tickStep s).t = s.t := by unfold tickStep; split <;> rfl
@[simp] theorem tickStep_tstop : (tickStep s).tstop = s.tstop := by unfold tickStep; split <;> rfl
@[simp] theorem tickStep_tdelta : (tickStep s).tdelta = s.tdelta := by unfold tickStep; split <;> rfl
@[simp] theorem tickStep_delay : (tickStep s).delay = s.delay := by unfold tickStep; split <;> rfl
@[simp] theorem tickStep_wcnt : (tickStep s).wcnt = if s.wcnt = 0#16 then s.wcnt else s.wcnt - 1#16 := by unfold tickStep; split <;> rfl
@[simp] theorem tickStep_commits : (tickStep s).commits = s.commits := by unfold tickStep; split <;> rfl
@[simp] theorem tickStep_errinfo : (tickStep s).errinfo = s.errinfo := by unfold tickStep; split <;> rfl
@[simp] theorem tickStep_off : (tickStep s).off = s.off := by unfold tickStep; split <;> rfl
@[simp] theorem tickStep_live : (tickStep s).live = s.live := by unfold tickStep; split <;> rfl
@[simp] theorem tickStep_held : (tickStep s).held = s.held := by unfold tickStep; split <;> rfl
@[simp] theorem tickStep_host : (tickStep s).host = s.host := by unfold tickStep; split <;> rfl
@[simp] theorem tickStep_turns : (tickStep s).turns = s.turns := by unfold tickStep; split <;> rfl
@[simp] theorem tickStep_readData : (tickStep s).readData = s.readData := by unfold tickStep; split <;> rfl
@[simp] theorem tickStep_scanData : (tickStep s).scanData = s.scanData := by unfold tickStep; split <;> rfl

/-! takeTurn -/

@[simp] theorem takeTurn_build : (takeTurn s).build = s.build := rfl
@[simp] theorem takeTurn_opa : (takeTurn s).opa = s.opa := rfl
@[simp] theorem takeTurn_opb : (takeTurn s).opb = s.opb := rfl
@[simp] theorem takeTurn_opc : (takeTurn s).opc = s.opc := rfl
@[simp] theorem takeTurn_opd : (takeTurn s).opd = s.opd := rfl
@[simp] theorem takeTurn_res : (takeTurn s).res = s.res := rfl
@[simp] theorem takeTurn_busy : (takeTurn s).busy = s.busy := rfl
@[simp] theorem takeTurn_run : (takeTurn s).run = s.run := rfl
@[simp] theorem takeTurn_rdone : (takeTurn s).rdone = s.rdone := rfl
@[simp] theorem takeTurn_errors : (takeTurn s).errors = s.errors := rfl
@[simp] theorem takeTurn_t : (takeTurn s).t = s.t := rfl
@[simp] theorem takeTurn_tstop : (takeTurn s).tstop = s.tstop := rfl
@[simp] theorem takeTurn_tdelta : (takeTurn s).tdelta = s.tdelta := rfl
@[simp] theorem takeTurn_delay : (takeTurn s).delay = s.delay := rfl
@[simp] theorem takeTurn_wcnt : (takeTurn s).wcnt = s.wcnt := rfl
@[simp] theorem takeTurn_commits : (takeTurn s).commits = s.commits := rfl
@[simp] theorem takeTurn_errinfo : (takeTurn s).errinfo = s.errinfo := rfl
@[simp] theorem takeTurn_off : (takeTurn s).off = s.off := rfl
@[simp] theorem takeTurn_live : (takeTurn s).live = s.live := rfl
@[simp] theorem takeTurn_held : (takeTurn s).held = s.held := rfl
@[simp] theorem takeTurn_host : (takeTurn s).host = s.host := rfl
@[simp] theorem takeTurn_turns : (takeTurn s).turns = s.turns.tail := rfl
@[simp] theorem takeTurn_readData : (takeTurn s).readData = s.readData := rfl
@[simp] theorem takeTurn_scanData : (takeTurn s).scanData = s.scanData := rfl

end Sys2Proof.Machine
end

