-- ==== Sys2Proof/Laws/Compositor.lean ====
section
/-! SUPPORT. What PLOT's loop over planes leaves in a buffer, and the facts of PIXEL_MASK it rests on (R14). -/

namespace Sys2Proof.Machine

theorem wf_markPlanes (g : Params) (r b l : Nat) (m : Byte) (n : Nat) {mem : Memory} (h : mem.wf) :
    (markPlanes g r b l m n mem).wf := by
  induction n with
  | zero => exact h
  | succ n ih => exact wf_writeByte ih _ _

theorem within_markPlanes {g : Params} {r b : Nat} (l : Nat) (m : Byte) (n : Nat) {mem : Memory}
    (hn : n ≤ g.numPlanes) (hr : r < g.numRows) (hb : b < g.lineBytes) (h : mem.within (bufferSize g)) :
    (markPlanes g r b l m n mem).within (bufferSize g) := by
  induction n with
  | zero => exact h
  | succ n ih =>
    refine within_writeByte (ih (by omega)) (cellIndex_lt ?_) _
    simp only [cellExists, Bool.and_eq_true, decide_eq_true_eq]
    omega

/-- A place that is no plane's byte of this row and byte reads as before. -/
theorem readByte_markPlanes_other {g : Params} {r b l : Nat} {m : Byte} {n : Nat} {mem : Memory} (h : mem.wf) {a : Nat}
    (ha : ∀ p, 1 ≤ p → p ≤ n → a ≠ cellIndex g p r b) :
    readByte (markPlanes g r b l m n mem) a = readByte mem a := by
  induction n with
  | zero => rfl
  | succ n ih =>
    simp only [markPlanes]
    rw [readByte_writeByte (wf_markPlanes g r b l m n h).1, if_neg (ha (n + 1) (by omega) (by omega))]
    exact ih fun p h1 h2 => ha p h1 (by omega)

/-- Plane p's byte holds the marked byte. -/
theorem readByte_markPlanes_plane {g : Params} {r b l : Nat} {m : Byte} {n : Nat} {mem : Memory} (h : mem.wf)
    (hr : r < g.numRows) (hb : b < g.lineBytes) {p : Nat} (hp : 1 ≤ p) (hpn : p ≤ n) :
    readByte (markPlanes g r b l m n mem) (cellIndex g p r b) =
      markByte p l m (readByte mem (cellIndex g p r b)) := by
  induction n with
  | zero => omega
  | succ n ih =>
    simp only [markPlanes]
    rw [readByte_writeByte (wf_markPlanes g r b l m n h).1]
    by_cases hpe : p = n + 1
    · subst hpe
      rw [if_pos rfl, readByte_markPlanes_other h]
      intro q h1 h2 heq
      have := cellIndex_inj (by omega) h1 hr hr hb hb heq
      omega
    · rw [if_neg, ih (by omega)]
      intro heq
      have := cellIndex_inj hp (by omega) hr hr hb hb heq
      omega

/-- Each of the eight masks is one of the eight one-bit bytes, and two masks differ (R14). -/
theorem pixelMask_facts (b : Build) :
    (∀ i, i < 8 → pixelMaskAt b i ∈ oneBitBytes) ∧
    ∀ i j, i < 8 → j < 8 → pixelMaskAt b i = pixelMaskAt b j → i = j := by
  have hl := b.legal
  simp only [Params.legal, Bool.and_eq_true] at hl
  have ht := hl.1.1.2
  simp only [Params.pixelMaskOk, Bool.and_eq_true, decide_eq_true_eq, List.all_eq_true, List.contains_iff_mem] at ht
  have hget : ∀ i, (h : i < 8) → pixelMaskAt b i = b.pixelMask.toList[i]'(by simpa using h) := by
    intro i h
    unfold pixelMaskAt
    rw [Vector.getElem?_eq_getElem h]
    simp
  constructor
  · intro i hi
    rw [hget i hi]
    exact ht.1 _ (List.getElem_mem _)
  · intro i j hi hj h
    rw [hget i hi, hget j hj] at h
    exact (List.Nodup.getElem_inj_iff ht.2).1 h

/-- Two different masks share no bit, and a mask is not 0. -/
theorem pixelMask_disjoint (b : Build) {i j : Nat} (hi : i < 8) (hj : j < 8) :
    pixelMaskAt b i ≠ 0#8 ∧ (i ≠ j → pixelMaskAt b i &&& pixelMaskAt b j = 0#8) := by
  obtain ⟨h1, h2⟩ := pixelMask_facts b
  have hd : ∀ x ∈ oneBitBytes, ∀ y ∈ oneBitBytes, x ≠ 0#8 ∧ (x ≠ y → x &&& y = 0#8) := by decide
  have := hd _ (h1 i hi) _ (h1 j hj)
  exact ⟨this.1, fun hij => this.2 fun heq => hij (h2 i j hi hj heq)⟩

/-- The sizes of a build (R6). -/
theorem build_sizes (b : Build) : 1 ≤ b.numRows ∧ b.numRows ≤ 255 ∧ 1 ≤ b.numCols ∧ b.numCols ≤ 255 ∧
    1 ≤ b.lineBytes ∧ b.lineBytes ≤ 255 ∧ 1 ≤ b.numPlanes ∧ b.numPlanes ≤ 255 ∧ b.numCols ≤ 8 * b.lineBytes := by
  have hl := b.legal
  simp [Params.legal, Params.sizesOk, Params.columnsOk] at hl
  omega

/-- LIVE ends before the register window begins, or begins after it ends (R130). -/
theorem build_live_apart (b : Build) :
    b.liveBase + bufferSize b.toParams ≤ b.base ∨ b.base + 0x40 ≤ b.liveBase := by
  have hl := b.legal
  simp only [Params.legal, Bool.and_eq_true] at hl
  simpa [Params.liveOk, bufferSize] using hl.2

end Sys2Proof.Machine
end

