-- ==== Sys2Proof/Laws/Decode.lean ====
section
/-! SUPPORT. The opcode map read both ways (R61, R63), and the fields of a word as numbers (R60). -/

namespace Sys2Proof

/-- An OPCODE selects a command exactly when it is that command's OPCODE. -/
theorem instrOfOpcode_eq_some_iff (b : Byte) (i : Instr) : instrOfOpcode b = some i ↔ b = i.opcode := by
  constructor
  · intro h
    apply BitVec.eq_of_toNat_eq
    unfold instrOfOpcode at h
    split at h <;> first | (cases h; done) | (injection h with h; subst h; assumption)
  · rintro rfl; cases i <;> rfl

/-- The 14 assigned OPCODE values. -/
theorem instrOfOpcode_eq_none_iff (b : Byte) : instrOfOpcode b = none ↔
    b.toNat ∉ [0x00, 0x01, 0x02, 0x03, 0x04, 0x05, 0x06, 0x07, 0x08, 0x10, 0x11, 0x12, 0x20, 0x21] := by
  revert b; decide +kernel

theorem opcodeField_toNat (w : Word) : (opcodeField w).toNat = w.toNat % 256 := by simp [opcodeField]

theorem reservedField_eq_zero_iff (w : Word) : reservedField w = 0#24 ↔ w.toNat / 256 = 0 := by
  have := w.isLt
  rw [BitVec.toNat_eq]
  simp [reservedField, Nat.shiftRight_eq_div_pow]
  omega

/-- A word whose RSVD field is 0 is its OPCODE field. -/
theorem word_eq_of_reservedField {w : Word} (h : reservedField w = 0#24) : w = 0#24 ++ opcodeField w := by
  apply BitVec.eq_of_toNat_eq
  rw [reservedField_eq_zero_iff] at h
  have hw : (0#24 ++ opcodeField w).toNat = (opcodeField w).toNat := by
    rw [BitVec.toNat_append]; simp
  rw [hw, opcodeField_toNat]
  omega

end Sys2Proof
end

