-- ==== Sys2Proof/Laws/Trig.lean ====
section
/-! SUPPORT. The quadrant fold: its index, its size, and its agreement with the form by quadrant (R80, R83). -/

namespace Sys2Proof.Machine

theorem quantum_lt (p : Prec) (x : Int) : quantum p x < 200 := Nat.mod_lt _ (by decide)

theorem quantum_neg (p : Prec) (x : Int) : quantum p (-x) = quantum p x := by
  unfold quantum; rw [Int.natAbs_neg]

/-- The two folds agree with the quadrant form of R80. -/
theorem sincore_eq_sineByQuadrant (b : Build) (x : Int) : sincore b x = sineByQuadrant b x := by
  have hq := quantum_lt b.prec x
  unfold sincore sineByQuadrant foldedIndex foldedNegative
  have hdef : x.natAbs / sinDiv b.prec % 200 = quantum b.prec x := rfl
  simp only [hdef]
  generalize quantum b.prec x = q at hq ⊢
  unfold foldHalf foldFull
  by_cases hx : x < 0
  · simp only [hx, decide_true, if_true]
    by_cases h1 : q < 50
    · simp [h1, show ¬ q ≥ 100 by omega, show ¬ q ≥ 50 by omega]
    · by_cases h2 : q < 100
      · simp [h1, h2, show ¬ q ≥ 100 by omega, show q ≥ 50 by omega]
      · by_cases h3 : q < 150
        · simp [h1, h2, h3, show q ≥ 100 by omega, show 199 - q ≥ 50 by omega, show 99 - (199 - q) = q - 100 by omega]
        · simp [h1, h2, h3, show q ≥ 100 by omega, show ¬ 199 - q ≥ 50 by omega]
  · simp only [hx, decide_false, if_false]
    by_cases h1 : q < 50
    · simp [h1, show ¬ q ≥ 100 by omega, show ¬ q ≥ 50 by omega]
    · by_cases h2 : q < 100
      · simp [h1, h2, show ¬ q ≥ 100 by omega, show q ≥ 50 by omega]
      · by_cases h3 : q < 150
        · simp [h1, h2, h3, show q ≥ 100 by omega, show 199 - q ≥ 50 by omega, show 99 - (199 - q) = q - 100 by omega]
        · simp [h1, h2, h3, show q ≥ 100 by omega, show ¬ 199 - q ≥ 50 by omega]

/-- A table entry lies in [0, FIX] (R11). -/
theorem sinEntry_range (b : Build) (k : Nat) : 0 ≤ sinEntry b k ∧ sinEntry b k ≤ b.prec.fix := by
  have hl := b.legal
  simp only [Params.legal, Bool.and_eq_true] at hl
  have ht := hl.1.1.1.2
  unfold Params.sinTableOk at ht
  rw [List.all_eq_true] at ht
  unfold sinEntry
  refine ⟨Int.natCast_nonneg _, ?_⟩
  rcases h : b.sinTable[k]? with _ | v
  · simp
  · have hmem : v ∈ b.sinTable.toList := by
      rw [Vector.mem_toList_iff]; exact Vector.mem_of_getElem? h
    have := ht v hmem
    simp only [decide_eq_true_eq] at this
    simp only [Option.getD_some]
    exact Int.ofNat_le.2 this

/-- A sine lies in [-FIX, FIX] (R85). -/
theorem sincore_range (b : Build) (x : Int) : -(b.prec.fix : Int) ≤ sincore b x ∧ sincore b x ≤ b.prec.fix := by
  have h := sinEntry_range b (foldedIndex b.prec x)
  unfold sincore
  simp only
  split <;> omega

theorem fix_le (p : Prec) : (p.fix : Int) ≤ 256 := by cases p <;> decide

/-- Negating an angle that is not 0 negates the sine. -/
theorem sincore_neg (b : Build) (x : Int) (h : x ≠ 0) : sincore b (-x) = -sincore b x := by
  unfold sincore foldedIndex foldedNegative
  rw [quantum_neg]
  have hd : decide (-x < 0) = !decide (x < 0) := by
    by_cases hx : x < 0
    · simp [hx]; omega
    · simp [hx]; omega
  simp only [hd]
  cases decide (x < 0) <;> cases decide (quantum b.prec x ≥ 100) <;> simp

end Sys2Proof.Machine
end

