-- ==== Sys2Proof/Laws/Exec.lean ====
section
/-! SUPPORT. What a command can leave, said once: `exec_cases`, and the frames of the ways an arithmetic command
ends. Later proofs over all commands cite these and unfold no meaning. -/

namespace Sys2Proof.Machine

/-- What one command leaves, from a state s. -/
inductive ExecCase (i : Instr) (s t : State) : Prop
  /-- NOP. -/
  | nop (hi : i = .nop) (e : t = s)
  /-- An aborting error (R120), with the command and the condition that raise it. -/
  | abort (x : ErrorCode)
      (hx : (x = .dz ∧ i = .div ∧ s.opb = 0#32) ∨ ((x = .coord ∨ x = .lvl) ∧ i = .plot) ∨
        (x = .td0 ∧ i = .rstart ∧ s.run = false) ∨ (x = .seq ∧ i = .rstart ∧ s.run = true) ∨
        (x = .seq ∧ i = .rnext ∧ s.run = false))
      (e : t = Machine.abort x i s)
  /-- An arithmetic result: its overflow flag and its narrow value. -/
  | result (ov : Bool) (v : Int)
      (hi : i ∈ [Instr.scaleup, .scaledn, .mul, .sin, .cos, .sqrt, .dist] ∨ (i = .div ∧ s.opb ≠ 0#32))
      (ho : ov = true → i ∈ [Instr.scaleup, .mul, .div, .cos, .sqrt, .dist])
      (hv : -32768 ≤ v ∧ v ≤ 32767) (e : t = setResult v (flagOv i ov s))
  /-- FBEGIN. -/
  | clear (hi : i = .fbegin) (e : t = setTarget (clearBelow (bufferSize s.build.toParams) (target s)) s)
  /-- A PLOT whose operands are in range. -/
  | plot (hi : i = .plot) (hc : narrowUnsigned s.opa < s.build.numCols) (hr : narrowUnsigned s.opb < s.build.numRows)
      (hl : 1 ≤ narrowUnsigned s.opc ∧ narrowUnsigned s.opc ≤ s.build.numPlanes)
      (e : t = plotPixel (narrowUnsigned s.opa) (narrowUnsigned s.opb) (narrowUnsigned s.opc) s)
  /-- FCOMMIT. -/
  | commit (hi : i = .fcommit) (e : t = commitFrame s)
  /-- An RSTART that is accepted. -/
  | start (hi : i = .rstart) (hrun : s.run = false) (htd : narrowSigned s.opc ≠ 0) (e : t = startSequence s)
  /-- An RNEXT while a sequence runs. -/
  | frame (hi : i = .rnext) (hrun : s.run = true) (e : t = startDelay (advance (commitFrame s)))

/-- Every state is the next state of an arithmetic command that answers a narrowed value. -/
theorem execCase_finish {i : Instr} {s : State} {ov : Bool} {v : Int}
    (hi : i ∈ [Instr.scaleup, .scaledn, .mul, .sin, .cos, .sqrt, .dist] ∨ (i = .div ∧ s.opb ≠ 0#32))
    (ho : ov = true → i ∈ [Instr.scaleup, .mul, .div, .cos, .sqrt, .dist]) : ExecCase i s (finish i ov v s) :=
  .result ov (narrow16 v) hi ho (narrow16_range v) rfl

theorem sincore_narrow (b : Build) (x : Int) : -32768 ≤ sincore b x ∧ sincore b x ≤ 32767 := by
  have h := sincore_range b x
  have hf := fix_le b.prec
  omega

theorem scaledown_narrow (s : State) : -32768 ≤ (narrowSigned s.opa).tdiv s.build.prec.fix ∧
    (narrowSigned s.opa).tdiv s.build.prec.fix ≤ 32767 := by
  have h := narrowSigned_range s.opa
  have hq : ((narrowSigned s.opa).tdiv s.build.prec.fix).natAbs ≤ 32768 := by
    rw [Int.natAbs_tdiv]
    exact (Nat.div_le_self _ _).trans (by omega)
  have hd : 1 < (s.build.prec.fix : Int) := by cases s.build.prec <;> decide
  obtain ⟨r, h1, h2, -⟩ := truncatedQuotient_tdiv (narrowSigned s.opa) s.build.prec.fix (by omega)
  have h3 : (narrowSigned s.opa).tdiv s.build.prec.fix ≠ 32768 := by
    intro hc
    rw [hc] at h1
    omega
  omega

/-- The inversion of a command. -/
theorem exec_cases {i : Instr} {s t : State} (h : exec i s = .next t) : ExecCase i s t := by
  cases i <;> simp only [exec, execNop, execScaleup, execScaledn, execMul, execDiv, execSin, execCos, execSqrt,
    execDist, execFbegin, execPlot, execFcommit, execRstart, execRnext, Host.Outcome.next.injEq] at h <;> subst h
  case nop => exact .nop rfl rfl
  case scaleup => exact execCase_finish (by simp) (by simp)
  case scaledn => exact .result false _ (by simp) (by simp) (scaledown_narrow s) rfl
  case mul => exact execCase_finish (by simp) (by simp)
  case div =>
    split
    · next hz => exact .abort .dz (by simp [hz]) rfl
    · next hz => exact execCase_finish (by simp [hz]) (by simp)
  case sin => exact .result false _ (by simp) (by simp) (sincore_narrow _ _) rfl
  case cos => exact .result _ _ (by simp) (by simp) (sincore_narrow _ _) rfl
  case sqrt => exact execCase_finish (by simp) (by simp)
  case dist => exact execCase_finish (by simp) (by simp)
  case fbegin => exact .clear rfl rfl
  case plot =>
    split
    · exact .abort .coord (by simp) rfl
    · next hc =>
      split
      · exact .abort .lvl (by simp) rfl
      · next hl =>
        simp [coordOk] at hc
        simp [levelOk] at hl
        exact .plot rfl hc.1 hc.2 ⟨by omega, hl.2⟩ rfl
  case fcommit => exact .commit rfl rfl
  case rstart =>
    split
    · next hr => exact .abort .seq (by simp [hr]) rfl
    · next hr =>
      split
      · exact .abort .td0 (by simp [hr]) rfl
      · next hz => exact .start rfl (by simpa using hr) hz rfl
  case rnext =>
    split
    · next hr => exact .frame rfl hr rfl
    · next hr => exact .abort .seq (by simp [hr]) rfl

/-- A narrow value in RES is a sign-extended 16-bit value (R76). -/
theorem ofInt_of_narrow {v : Int} (h : -32768 ≤ v ∧ v ≤ 32767) :
    BitVec.ofInt 32 v = (BitVec.ofInt 16 v).signExtend 32 := by
  rw [← ofInt_narrow16, narrow16_of_fits h.1 h.2]

theorem arithFrame_setResult_flagOv (v : Int) (i : Instr) (ov : Bool) (s : State) :
    ArithFrame s (setResult v (flagOv i ov s)) := by
  refine ⟨⟨?_, ?_, ?_, ?_⟩, ⟨?_, ?_, ?_, ?_, ?_, ?_, ?_, ?_⟩, ?_, ⟨?_, ?_⟩, ⟨?_, ?_, ?_, ?_, ?_, ?_⟩⟩ <;> simp

theorem arithFrame_abort (x : ErrorCode) (i : Instr) (s : State) : ArithFrame s (Machine.abort x i s) := by
  refine ⟨⟨?_, ?_, ?_, ?_⟩, ⟨?_, ?_, ?_, ?_, ?_, ?_, ?_, ?_⟩, ?_, ⟨?_, ?_⟩, ⟨?_, ?_, ?_, ?_, ?_, ?_⟩⟩ <;> simp

/-- A command leaves the build, the operand registers and the agents around FPCORE alone (R22, R44). -/
theorem exec_around {i : Instr} {s t : State} (h : exec i s = .next t) : SameOperands s t ∧ SameAround s t := by
  cases exec_cases h with
  | nop _ e => subst e; exact ⟨⟨rfl, rfl, rfl, rfl⟩, ⟨rfl, rfl, rfl, rfl, rfl, rfl⟩⟩
  | abort x _ e => subst e; exact ⟨(arithFrame_abort x i s).operands, (arithFrame_abort x i s).around⟩
  | result ov v _ _ _ e =>
    subst e
    exact ⟨(arithFrame_setResult_flagOv v i ov s).operands, (arithFrame_setResult_flagOv v i ov s).around⟩
  | clear _ e => subst e; refine ⟨⟨?_, ?_, ?_, ?_⟩, ⟨?_, ?_, ?_, ?_, ?_, ?_⟩⟩ <;> simp
  | plot _ _ _ _ e => subst e; refine ⟨⟨?_, ?_, ?_, ?_⟩, ⟨?_, ?_, ?_, ?_, ?_, ?_⟩⟩ <;> simp [plotPixel]
  | commit _ e => subst e; refine ⟨⟨?_, ?_, ?_, ?_⟩, ⟨?_, ?_, ?_, ?_, ?_, ?_⟩⟩ <;> simp
  | start _ _ _ e => subst e; exact ⟨⟨rfl, rfl, rfl, rfl⟩, ⟨rfl, rfl, rfl, rfl, rfl, rfl⟩⟩
  | frame _ _ e => subst e; refine ⟨⟨?_, ?_, ?_, ?_⟩, ⟨?_, ?_, ?_, ?_, ?_, ?_⟩⟩ <;> simp

end Sys2Proof.Machine
end

