-- ==== Sys2Proof/Laws/Sequencer.lean ====
section
/-! SUPPORT. The sequencer in numbers: the TICK step, the exact next time, and the range test as a count of frames
(R104 to R109). -/

namespace Sys2Proof.Machine

theorem half_ne_zero_iff (w : Half) : w ≠ 0#16 ↔ 0 < w.toNat := by
  rw [Ne, BitVec.toNat_eq]
  simp only [BitVec.toNat_ofNat, Nat.zero_mod]
  omega

theorem tickStep_wcnt_toNat (s : State) : (tickStep s).wcnt.toNat = s.wcnt.toNat - 1 := by
  rw [tickStep_wcnt]
  split
  · next h => rw [h]; rfl
  · next h =>
    have h1 : (1#16) ≤ s.wcnt := by rw [BitVec.le_def]; exact (half_ne_zero_iff s.wcnt).1 h
    rw [BitVec.toNat_sub_of_le h1]
    rfl

/-- A TICK step keeps BUSY in step with WCNT (R25). -/
theorem tickStep_busy_iff (s : State) (h : s.busy = true ↔ s.wcnt ≠ 0#16) :
    (tickStep s).busy = true ↔ (tickStep s).wcnt ≠ 0#16 := by
  rw [tickStep_busy, tickStep_wcnt]
  split
  · exact h
  · next h1 =>
    split
    · next h2 => simp [h2]
    · next h2 => simp only [ne_eq, h2, not_false_eq_true, iff_true]; exact h.2 h1

/-- The next time of a sequence that goes on fits 16 bits: it lies between T and TSTOP (R106). -/
theorem nextTime_narrow {s : State} (h : inRange s.tdelta.toInt s.tstop.toInt (nextTime s) = true) :
    (BitVec.ofInt 16 (nextTime s)).toInt = nextTime s := by
  have h1 := half_toInt_range s.t
  have h2 := half_toInt_range s.tstop
  have h3 : -32768 ≤ nextTime s ∧ nextTime s ≤ 32767 := by
    have hn : nextTime s = s.t.toInt + s.tdelta.toInt := rfl
    unfold inRange at h
    split at h <;> simp at h <;> omega
  exact narrow16_of_fits h3.1 h3.2

/-- The time of frame i is in range exactly when i is below the frame count (R109). -/
theorem inRange_iff_lt_frameCount (ts tp td : Int) (h : td ≠ 0) (i : Nat) :
    inRange td tp (ts + i * td) = true ↔ i < frameCount ts tp td := by
  unfold inRange frameCount
  rcases lt_or_gt_of_ne h with h1 | h1
  · rw [if_neg (by omega), if_neg (by omega)]
    simp only [gt_iff_lt, decide_eq_true_eq]
    rw [Int.lt_toNat, ← Int.add_one_le_iff (a := (i : Int)), Int.le_ediv_iff_mul_le (by omega)]
    constructor <;> intro h <;> nlinarith
  · rw [if_pos (by omega), if_pos (by omega)]
    simp only [decide_eq_true_eq]
    rw [Int.lt_toNat, ← Int.add_one_le_iff (a := (i : Int)), Int.le_ediv_iff_mul_le (by omega)]
    constructor <;> intro h <;> nlinarith

end Sys2Proof.Machine
end

