-- ==== Sys2Proof/Laws/Invariant.lean ====
section
/-! SUPPORT. The invariant and the state updates: a change outside FPCORE, a recorded error, a new content of a
buffer. -/

namespace Sys2Proof.Machine

/-- The fields the invariant reads, but for the error registers and the buffers, are as before. -/
structure SameControl (s t : State) : Prop where
  build : t.build = s.build
  busy : t.busy = s.busy
  wcnt : t.wcnt = s.wcnt
  run : t.run = s.run
  rdone : t.rdone = s.rdone
  time : t.t = s.t
  tstop : t.tstop = s.tstop
  tdelta : t.tdelta = s.tdelta
  res : t.res = s.res

/-- A step that changes nothing the invariant reads keeps it. -/
theorem inv_of_same {s t : State} (h : Inv s) (c : SameControl s t) (he : NoError s t) (ho : t.off = s.off)
    (hl : t.live = s.live) : Inv t := by
  obtain ⟨c1, c2, c3, c4, c5, c6, c7, c8, c9⟩ := c
  obtain ⟨a1, a2, a3, a4, a5, a6, a7, a8, a9, a10, a11⟩ := h
  constructor <;> simp only [c1, c2, c3, c4, c5, c6, c7, c8, c9, he.1, he.2, ho, hl] <;> assumption

theorem errinfoOf_code (f c o : Byte) : (errinfoOf f c o).extractLsb' 8 8 = c := by
  apply BitVec.eq_of_getLsbD_eq
  intro i hi
  simp only [errinfoOf, BitVec.getLsbD_extractLsb', BitVec.getLsbD_append, hi, decide_true, Bool.true_and]
  rw [if_neg (by omega), if_pos (by omega)]
  congr 1
  omega

/-- A step that records an error and changes nothing else the invariant reads keeps it. -/
theorem inv_of_error {s t : State} (h : Inv s) (c : SameControl s t) (x : ErrorCode) (o f : Byte)
    (he : t.errinfo = errinfoOf f x.code o) (ho : t.off = s.off) (hl : t.live = s.live) : Inv t := by
  obtain ⟨c1, c2, c3, c4, c5, c6, c7, c8, c9⟩ := c
  obtain ⟨a1, a2, a3, a4, a5, a6, a7, a8, a9, a10, a11⟩ := h
  have hx := errinfoOf_code f x.code o
  have hne : errinfoOf f x.code o ≠ 0#24 := by
    intro hc
    rw [hc] at hx
    revert hx
    cases x <;> decide
  constructor
  case errinfoNamesCode => right; rw [he, hx]; cases x <;> decide
  case errorHasInfo => intro _; rw [he]; exact hne
  all_goals simp only [c1, c2, c3, c4, c5, c6, c7, c8, c9, ho, hl]; assumption

/-- A step that writes the buffers, in canonical form and inside their size, keeps the invariant. -/
theorem inv_of_buffers {s t : State} (h : Inv s) (c : SameControl s t) (he : NoError s t) (ho : t.off.wf)
    (hl : t.live.wf) (hoi : t.off.within (bufferSize s.build.toParams))
    (hli : t.live.within (bufferSize s.build.toParams)) (hd : s.build.doubleBuffer = false → t.off = []) : Inv t := by
  obtain ⟨c1, c2, c3, c4, c5, c6, c7, c8, c9⟩ := c
  obtain ⟨a1, a2, a3, a4, a5, a6, a7, a8, a9, a10, a11⟩ := h
  constructor
  case offForm => exact ho
  case liveForm => exact hl
  case offInside => rw [c1]; exact hoi
  case liveInside => rw [c1]; exact hli
  case noOffWhenDirect => rw [c1]; exact hd
  all_goals simp only [c2, c3, c4, c5, c6, c7, c8, c9, he.1, he.2]; assumption

/-- TGT is in canonical form and inside its size. -/
theorem target_form {s : State} (h : Inv s) : (target s).wf ∧ (target s).within (bufferSize s.build.toParams) := by
  unfold target
  split
  · exact ⟨h.offForm, h.offInside⟩
  · exact ⟨h.liveForm, h.liveInside⟩

end Sys2Proof.Machine
end

