-- ==== Sys2Proof/Laws/PerInstr.lean ====
section
/-! SUPPORT. Statements about every command, one lemma a constructor. -/

namespace Sys2Proof.Laws

/-- The encoding of a command has RSVD = 0 and its OPCODE below it, and the command is well formed (R60, R61). -/
def Encoding.Statement (i : Instr) : Prop :=
  reservedField (encode i) = 0#24 ∧ opcodeField (encode i) = i.opcode ∧
    commandWordWellFormed (encode i) = true ∧ i.wellFormed = true

theorem Encoding.nop : Encoding.Statement .nop := ⟨rfl, rfl, rfl, rfl⟩
theorem Encoding.scaleup : Encoding.Statement .scaleup := ⟨rfl, rfl, rfl, rfl⟩
theorem Encoding.scaledn : Encoding.Statement .scaledn := ⟨rfl, rfl, rfl, rfl⟩
theorem Encoding.mul : Encoding.Statement .mul := ⟨rfl, rfl, rfl, rfl⟩
theorem Encoding.div : Encoding.Statement .div := ⟨rfl, rfl, rfl, rfl⟩
theorem Encoding.sin : Encoding.Statement .sin := ⟨rfl, rfl, rfl, rfl⟩
theorem Encoding.cos : Encoding.Statement .cos := ⟨rfl, rfl, rfl, rfl⟩
theorem Encoding.sqrt : Encoding.Statement .sqrt := ⟨rfl, rfl, rfl, rfl⟩
theorem Encoding.dist : Encoding.Statement .dist := ⟨rfl, rfl, rfl, rfl⟩
theorem Encoding.fbegin : Encoding.Statement .fbegin := ⟨rfl, rfl, rfl, rfl⟩
theorem Encoding.plot : Encoding.Statement .plot := ⟨rfl, rfl, rfl, rfl⟩
theorem Encoding.fcommit : Encoding.Statement .fcommit := ⟨rfl, rfl, rfl, rfl⟩
theorem Encoding.rstart : Encoding.Statement .rstart := ⟨rfl, rfl, rfl, rfl⟩
theorem Encoding.rnext : Encoding.Statement .rnext := ⟨rfl, rfl, rfl, rfl⟩

end Sys2Proof.Laws
end

