-- ==== Sys2Proof/Laws/Root.lean ====
section
/-! SUPPORT. The square-root unit: what one iteration does on numbers, and what the loop holds after n of them. -/

namespace Sys2Proof.Machine

/-- One iteration on numbers, while the registers are small enough not to wrap. -/
theorem rootStep_toNat (r : RootState) (h1 : r.root.toNat < 2 ^ 21) (h2 : r.rem.toNat < 2 ^ 23) :
    (rootStep r).xs.toNat = r.xs.toNat * 4 % 2 ^ 32 ∧
    (rootStep r).rem.toNat = (if 4 * r.root.toNat + 1 ≤ 4 * r.rem.toNat + r.xs.toNat / 2 ^ 30
      then 4 * r.rem.toNat + r.xs.toNat / 2 ^ 30 - (4 * r.root.toNat + 1)
      else 4 * r.rem.toNat + r.xs.toNat / 2 ^ 30) ∧
    (rootStep r).root.toNat = (if 4 * r.root.toNat + 1 ≤ 4 * r.rem.toNat + r.xs.toNat / 2 ^ 30
      then 2 * r.root.toNat + 1 else 2 * r.root.toNat) := by
  have hx := r.xs.isLt
  have hxs : (r.xs <<< 2).toNat = r.xs.toNat * 4 % 2 ^ 32 := by
    rw [BitVec.toNat_shiftLeft, Nat.shiftLeft_eq]
  have hrem : ((r.rem <<< 2) ||| (r.xs >>> 30)).toNat = 4 * r.rem.toNat + r.xs.toNat / 2 ^ 30 := by
    rw [BitVec.toNat_or, BitVec.toNat_shiftLeft, BitVec.toNat_ushiftRight, Nat.shiftRight_eq_div_pow,
      Nat.mod_eq_of_lt (by rw [Nat.shiftLeft_eq]; omega), ← Nat.shiftLeft_add_eq_or_of_lt (by omega),
      Nat.shiftLeft_eq]
    omega
  have hroot : (r.root <<< 1).toNat = 2 * r.root.toNat := by
    rw [BitVec.toNat_shiftLeft, Nat.shiftLeft_eq]; omega
  have he : (((r.root <<< 1) <<< 1) ||| 1#32).toNat = 4 * r.root.toNat + 1 := by
    rw [BitVec.toNat_or, BitVec.toNat_shiftLeft, hroot, Nat.mod_eq_of_lt (by rw [Nat.shiftLeft_eq]; omega)]
    show (2 * r.root.toNat) <<< 1 ||| 1 = _
    rw [← Nat.shiftLeft_add_eq_or_of_lt (by omega), Nat.shiftLeft_eq]
    omega
  simp only [rootStep, BitVec.le_def, he, hrem]
  split
  · next h =>
    refine ⟨hxs, ?_, ?_⟩
    · rw [BitVec.toNat_sub_of_le (by rw [BitVec.le_def, he, hrem]; exact h), he, hrem]
    · rw [BitVec.toNat_add, hroot]
      show (2 * r.root.toNat + 1) % 2 ^ 32 = _
      omega
  · exact ⟨hxs, hrem, hroot⟩

/-- The loop with one more iteration at its end. -/
theorem rootLoop_succ (n : Nat) (r : RootState) : rootLoop (n + 1) r = rootStep (rootLoop n r) := by
  induction n generalizing r with
  | zero => rfl
  | succ n ih => rw [rootLoop, ih (rootStep r)]; rfl

/-- What the unit holds after n ≤ 20 iterations: the part of x it has consumed is root² + rem, the remainder is at
most 2·root, and the shift register holds what is left. -/
theorem rootLoop_consumed (x : Word) (n : Nat) (hn : n ≤ 20) :
    let r := rootLoop n { rem := 0#32, root := 0#32, xs := x }
    r.root.toNat * r.root.toNat + r.rem.toNat = x.toNat * 4 ^ n / 2 ^ 32 ∧ r.rem.toNat ≤ 2 * r.root.toNat ∧
      r.root.toNat < 2 ^ n ∧ r.xs.toNat = x.toNat * 4 ^ n % 2 ^ 32 := by
  induction n with
  | zero =>
    have := x.isLt
    simp only [rootLoop, BitVec.toNat_ofNat]
    refine ⟨?_, ?_, ?_, ?_⟩ <;> simp <;> omega
  | succ n ih =>
    obtain ⟨h1, h2, h3, h4⟩ := ih (by omega)
    simp only [rootLoop_succ]
    generalize rootLoop n { rem := 0#32, root := 0#32, xs := x } = r at h1 h2 h3 h4 ⊢
    have hle : 2 ^ n ≤ 2 ^ 19 := Nat.pow_le_pow_right (by omega) (by omega)
    obtain ⟨s1, s2, s3⟩ := rootStep_toNat r (by omega) (by omega)
    have hc : x.toNat * 4 ^ (n + 1) / 2 ^ 32 = 4 * (x.toNat * 4 ^ n / 2 ^ 32) + r.xs.toNat / 2 ^ 30 := by
      rw [h4, pow_succ, ← mul_assoc]; omega
    have hpow : 2 ^ (n + 1) = 2 * 2 ^ n := by rw [pow_succ]; ring
    have hx : r.xs.toNat / 2 ^ 30 < 4 := by have := r.xs.isLt; omega
    rw [s1, s2, s3, hc, ← h1, hpow]
    refine ⟨?_, ?_, ?_, ?_⟩
    · split
      · next h =>
        zify [h]
        ring
      · ring
    · split <;> omega
    · split <;> omega
    · rw [h4, pow_succ 4 n, ← mul_assoc]; omega

/-- The root of the consumed part is its floor root. -/
theorem floorRoot_of_remainder {n root rem : Nat} (h1 : root * root + rem = n) (h2 : rem ≤ 2 * root) :
    FloorRoot n root := by
  constructor
  · omega
  · have : (root + 1) * (root + 1) = root * root + 2 * root + 1 := by ring
    omega

/-- The floor root is unique. -/
theorem floorRoot_unique {n r q : Nat} (h1 : FloorRoot n r) (h2 : FloorRoot n q) : r = q := by
  obtain ⟨a, b⟩ := h1
  obtain ⟨c, d⟩ := h2
  have h3 : r < q + 1 := Nat.mul_self_lt_mul_self_iff.1 (by omega)
  have h4 : q < r + 1 := Nat.mul_self_lt_mul_self_iff.1 (by omega)
  omega

/-- A floor root is at least k exactly when the number is at least k². -/
theorem floorRoot_ge_iff {n r : Nat} (h : FloorRoot n r) (k : Nat) : k ≤ r ↔ k * k ≤ n := by
  obtain ⟨a, b⟩ := h
  constructor
  · intro hk
    exact Nat.le_trans (Nat.mul_le_mul hk hk) a
  · intro hk
    have : k < r + 1 := Nat.mul_self_lt_mul_self_iff.1 (by omega)
    omega

/-- The wide sum of DIST never wraps: it is the sum of the two scaled squares, at most 2^26 (R93). -/
theorem sumOfSquares_toNat (p : Prec) {dx dy : Int} (hx : -32768 ≤ dx ∧ dx ≤ 32767) (hy : -32768 ≤ dy ∧ dy ≤ 32767) :
    (BitVec.ofInt 32 (sumOfSquares p dx dy)).toNat = (dx * dx / (p.fix : Int) + dy * dy / (p.fix : Int)).toNat ∧
      dx * dx / (p.fix : Int) + dy * dy / (p.fix : Int) ≤ 2 ^ 26 := by
  obtain ⟨e1, l1, u1⟩ := mulw_self p dx hx
  obtain ⟨e2, l2, u2⟩ := mulw_self p dy hy
  rw [← e1, ← e2]
  refine ⟨?_, by omega⟩
  rw [BitVec.toNat_ofInt]
  unfold sumOfSquares
  omega

end Sys2Proof.Machine
end

