-- ==== Sys2Proof/Laws/Step.lean ====
section
/-! SUPPORT. What a step can do, said once: `step_cases` for a step of the machine, and one equation a command for
exec. Later proofs cite these and unfold neither. -/

namespace Sys2Proof.Machine

/-- Every command answers a next state. -/
theorem exec_next (i : Instr) (s : State) : ∃ t, exec i s = .next t := by cases i <;> exact ⟨_, rfl⟩

/-- A word decodes to a command or is rejected, and CORE goes on either way. -/
theorem performCommand_cases {w : Word} {s t : State} (h : performCommand w s = .next t) :
    (∃ i, decode w = .ok i ∧ exec i s = .next t) ∨ (∃ e, decode w = .error e ∧ t = illegalCommand e s) := by
  unfold performCommand at h
  split at h
  · next i hd => exact .inl ⟨i, hd, h⟩
  · next e hd => exact .inr ⟨e, hd, by simpa using h.symm⟩

/-- E_ILL is recorded with the word's OPCODE, and nothing else happens. -/
theorem illegalCommand_eq {w : Word} {e : DecodeError} (h : decode w = .error e) (s : State) :
    illegalCommand e s = raise .ill (opcodeField w) 0#8 s := by
  unfold decode at h
  split at h
  · split at h
    · exact absurd h (by simp)
    · cases h; rfl
  · cases h; rfl

/-- What one step leaves, from a state s. In each case s0 is s with the turn taken and, in the host's cases, its access
issued: s0 differs from s only in held, host and turns. -/
inductive StepCase (s t : State) : Prop
  /-- The host has nothing it can do. -/
  | idle (h : nextTurn s = .host) (e : t = takeTurn s)
  /-- A millisecond passes. -/
  | tick (h : nextTurn s = .tick) (e : t = tickStep (takeTurn s))
  /-- SCAN reads a byte. -/
  | scan (p r b : Nat) (h : nextTurn s = .scan p r b) (c : cellExists s.build.toParams p r b = true)
      (e : t = { takeTurn s with scanData := some (readByte s.live (cellIndex s.build.toParams p r b)) })
  /-- The reset input. -/
  | reset (h : nextTurn s = .reset) (e : t = resetEvent (takeTurn s))
  /-- A host read. -/
  | read (k : BitVec 6) (w : Width) (rest : List HostOp) (h : nextTurn s = .host) (hh : s.held = none)
      (hs : s.host = .read k w :: rest) (e : t = hostRead k w { takeTurn s with host := rest })
  /-- A poll. -/
  | poll (rest : List HostOp) (h : nextTurn s = .host) (hh : s.held = none) (hs : s.host = .poll :: rest)
      (e : t = pollStep rest (takeTurn s))
  /-- An illegal host write. -/
  | badWrite (k : BitVec 6) (w : Width) (d : Word) (rest : List HostOp) (h : nextTurn s = .host) (hh : s.held = none)
      (hs : s.host = .write k w d :: rest) (hl : accessLegal k w = false)
      (e : t = busError k { takeTurn s with host := rest })
  /-- A legal host write to a register other than CMD. -/
  | write (k : BitVec 6) (w : Width) (d : Word) (rest : List HostOp) (h : nextTurn s = .host) (hh : s.held = none)
      (hs : s.host = .write k w d :: rest) (hl : accessLegal k w = true) (hr : regAt k ≠ .cmd)
      (e : t = writeReg (regAt k) d { takeTurn s with host := rest })
  /-- A CMD write is issued while BUSY = 1, and held. -/
  | hold (k : BitVec 6) (w : Width) (d : Word) (rest : List HostOp) (h : nextTurn s = .host) (hh : s.held = none)
      (hs : s.host = .write k w d :: rest) (hl : accessLegal k w = true) (hr : regAt k = .cmd) (hb : s.busy = true)
      (e : t = { takeTurn s with host := rest, held := some d })
  /-- A CMD write is performed with its command. -/
  | command (d : Word) (i : Instr) (hd : decode d = .ok i) (h : nextTurn s = .host) (hb : s.busy = false)
      (src : s.held = some d ∨ (s.held = none ∧ ∃ k w rest, s.host = .write k w d :: rest ∧
        accessLegal k w = true ∧ regAt k = .cmd)) (held : Option Word) (host : List HostOp)
      (e : exec i { takeTurn s with held := held, host := host } = .next t)
  /-- A CMD write of an illegal word. -/
  | illegal (d : Word) (x : DecodeError) (hd : decode d = .error x) (h : nextTurn s = .host) (hb : s.busy = false)
      (held : Option Word) (host : List HostOp)
      (e : t = illegalCommand x { takeTurn s with held := held, host := host })

/-- The inversion of a step. -/
theorem step_cases {s t : State} (h : step s = .next t) : StepCase s t := by
  unfold step agentStep at h
  split at h
  · next ht =>
    unfold hostStep at h
    split at h
    · next w hw =>
      split at h
      · exact .idle ht (by simpa using h.symm)
      · next hb =>
        have hb' : s.busy = false := by simpa using hb
        rcases performCommand_cases h with ⟨i, hd, he⟩ | ⟨x, hd, he⟩
        · exact .command w i hd ht hb' (.inl hw) none s.host he
        · exact .illegal w x hd ht hb' none s.host he
    · next hw =>
      split at h
      · exact .idle ht (by simpa using h.symm)
      · next k w rest hs => exact .read k w rest ht hw hs (by simpa using h.symm)
      · next k w d rest hs =>
        unfold hostWrite at h
        split at h
        · next hl =>
          split at h
          · next hr =>
            unfold commandWrite at h
            split at h
            · next hb => exact .hold k w d rest ht hw hs hl hr hb (by simpa using h.symm)
            · next hb =>
              have hb' : s.busy = false := by simpa using hb
              rcases performCommand_cases h with ⟨i, hd, he⟩ | ⟨x, hd, he⟩
              · exact .command d i hd ht hb' (.inr ⟨hw, k, w, rest, hs, hl, hr⟩) s.held rest he
              · exact .illegal d x hd ht hb' s.held rest he
          · next hr => exact .write k w d rest ht hw hs hl hr (by simpa using h.symm)
        · next hl => exact .badWrite k w d rest ht hw hs (by simpa using hl) (by simpa using h.symm)
      · next rest hs => exact .poll rest ht hw hs (by simpa using h.symm)
  · next ht => exact .tick ht (by simpa using h.symm)
  · next p r b ht =>
    unfold scanStep at h
    split at h
    · next hc => exact .scan p r b ht hc (by simpa using h.symm)
    · simp at h
  · next ht => exact .reset ht (by simpa using h.symm)

/-- A step stops only on SCAN's turn, and only for a byte LIVE does not have. -/
theorem step_fault_cases {s : State} {f : Fault} (h : step s = .fault f) :
    ∃ p r b, nextTurn s = .scan p r b ∧ cellExists s.build.toParams p r b = false ∧ f = .noSuchLiveByte p r b := by
  have hperf : ∀ w u, performCommand w u ≠ .fault f := by
    intro w u hp
    unfold performCommand at hp
    split at hp
    · next i _ => obtain ⟨v, hv⟩ := exec_next i u; rw [hv] at hp; simp at hp
    · simp at hp
  unfold step agentStep at h
  split at h
  · unfold hostStep hostWrite commandWrite at h
    split at h
    · split at h
      · simp at h
      · exact absurd h (hperf _ _)
    · split at h
      · simp at h
      · simp at h
      · split at h
        · split at h
          · split at h
            · simp at h
            · exact absurd h (hperf _ _)
          · simp at h
        · simp at h
      · simp at h
  · simp at h
  · next p r b ht =>
    unfold scanStep at h
    split at h
    · simp at h
    · next hc => exact ⟨p, r, b, ht, by simpa using hc, by simpa using h.symm⟩
  · simp at h

/-- The register at a register's own offset (R21). -/
theorem regAt_offset (r : Reg) : regAt r.offset = r := by cases r <;> rfl

theorem accessLegal_offset (r : Reg) : accessLegal r.offset .word = true := by cases r <;> rfl

/-- A legal access to a register stands at that register's offset. -/
theorem offset_of_regAt {k : BitVec 6} {w : Width} (h : accessLegal k w = true) : k = (regAt k).offset ∧ w = .word := by
  cases w with
  | byte => simp [accessLegal] at h
  | half => simp [accessLegal] at h
  | word =>
    refine ⟨?_, rfl⟩
    revert h k
    decide

/-- A run of one step more goes on from what the step leaves. -/
theorem run_succ (M : Host.Core) {s t : M.State} (h : M.step s = .next t) (k : Nat) : M.run (k + 1) s = M.run k t := by
  simp only [Host.Core.run, h]

theorem run_succ_of_next {s t : State} (h : step s = .next t) (k : Nat) :
    Sys2Proof.core.run (k + 1) s = Sys2Proof.core.run k t := run_succ Sys2Proof.core h k

end Sys2Proof.Machine
end

