-- ==== Sys2Proof/Tests/Slice0.lean ====
section
/-! SUPPORT. Tests. Expected values are the vectors of spec/95_test_vectors.md (named by their ids) or are read off
the rule a test names. The witnesses at the end meet the hypotheses of the obligations, clause by clause at the ends
of their ranges. -/

namespace Sys2Proof.Tests

open Sys2Proof.Machine

/-! Small builds. The sine tables are arbitrary ones within R11's bounds. -/

def lowTable : Vector Nat 50 := Vector.ofFn fun k => (2 * k.val + 5) % 33
def normalTable : Vector Nat 50 := Vector.ofFn fun k => k.val + 3

/-- LOW, double buffered, 4 rows, 4 columns, 1 byte a row, 2 planes (vector S12). -/
def lowParams : Params :=
  { prec := .low, numRows := 4, numCols := 4, lineBytes := 1, numPlanes := 2, doubleBuffer := true,
    sinTable := lowTable, base := 0x40, liveBase := 0 }

/-- NORMAL, double buffered, 2 rows, 10 columns, 2 bytes a row, 3 planes (the compositor vectors). -/
def normalParams : Params :=
  { prec := .normal, numRows := 2, numCols := 10, lineBytes := 2, numPlanes := 3, doubleBuffer := true,
    sinTable := normalTable, base := 0, liveBase := 0x1000 }

def lowBuild : Build := { lowParams with legal := by decide +kernel }
def normalBuild : Build := { normalParams with legal := by decide +kernel }
def directBuild : Build := { { normalParams with doubleBuffer := false } with legal := by decide +kernel }

/-- Right after reset, with LIVE all zero. -/
def lowState : State := State.afterReset lowBuild []
def normalState : State := State.afterReset normalBuild []
def directState : State := State.afterReset directBuild []

def nextState : Host.Outcome State Fault Refusal → Option State
  | .next t => some t
  | .fault _ => none
  | .refused _ => none

/-- One step that runs the command word w. -/
def ran (w : Nat) (s : State) : Option State := nextState (step (s.withFetchWord 32 w))

/-- One step in which the host issues op. -/
def issued (op : HostOp) (s : State) : Option State := nextState (step { s with host := [op], turns := [.host] })

/-- RES, the error bits and ERRINFO. -/
def outputs (t : State) : List Int := [t.res.toInt, t.errors.toNat, t.errinfo.toNat]

/-- The sequence's registers: T, RUN, RDONE, BUSY, WCNT, COMMITS. -/
def sequence (t : State) : List Int :=
  [t.t.toInt, t.run.toNat, t.rdone.toNat, t.busy.toNat, t.wcnt.toNat, t.commits.toNat]

/-! WellFormed: each check refuses an ill-formed term -/

theorem test_refuses_zero_rows : { normalParams with numRows := 0 }.sizesOk = false := by decide
theorem test_refuses_256_planes : { normalParams with numPlanes := 256 }.sizesOk = false := by decide
theorem test_refuses_too_many_columns : { normalParams with numCols := 17 }.columnsOk = false := by decide
theorem test_refuses_low_with_17_rows : { lowParams with numRows := 17 }.lowOk = false := by decide
theorem test_refuses_low_with_17_columns : { lowParams with numCols := 17, lineBytes := 3 }.lowOk = false := by decide
theorem test_refuses_sine_above_fix :
    { lowParams with sinTable := Vector.replicate 50 33 }.sinTableOk = false := by decide
theorem test_refuses_two_bit_mask :
    { lowParams with pixelMask := #v[3#8, 2#8, 4#8, 8#8, 16#8, 32#8, 64#8, 128#8] }.pixelMaskOk = false := by decide
theorem test_refuses_repeated_mask :
    { lowParams with pixelMask := #v[2#8, 2#8, 4#8, 8#8, 16#8, 32#8, 64#8, 128#8] }.pixelMaskOk = false := by decide
theorem test_refuses_unaligned_base : { lowParams with base := 0x20 }.baseOk = false := by decide
/-- R130: LIVE's last byte in the window's first, and LIVE's first byte in the window's last. -/
theorem test_refuses_live_in_window :
    { lowParams with liveBase := 0x39 }.liveOk = false ∧ { lowParams with liveBase := 0x7F }.liveOk = false := by decide
theorem test_refuses_reserved_bit : commandWordWellFormed 0x00000103#32 = false := by decide
theorem test_refuses_unassigned_opcode : commandWordWellFormed 0x00000009#32 = false := by decide

/-! Decoding: the word of each command, written out from R60 and R61 -/

theorem test_decode_nop : decodeTableWord 32 0b00000000000000000000000000000000 = some .nop := by decide
theorem test_decode_scaleup : decodeTableWord 32 0b00000000000000000000000000000001 = some .scaleup := by decide
theorem test_decode_scaledn : decodeTableWord 32 0b00000000000000000000000000000010 = some .scaledn := by decide
theorem test_decode_mul : decodeTableWord 32 0b00000000000000000000000000000011 = some .mul := by decide
theorem test_decode_div : decodeTableWord 32 0b00000000000000000000000000000100 = some .div := by decide
theorem test_decode_sin : decodeTableWord 32 0b00000000000000000000000000000101 = some .sin := by decide
theorem test_decode_cos : decodeTableWord 32 0b00000000000000000000000000000110 = some .cos := by decide
theorem test_decode_sqrt : decodeTableWord 32 0b00000000000000000000000000000111 = some .sqrt := by decide
theorem test_decode_dist : decodeTableWord 32 0b00000000000000000000000000001000 = some .dist := by decide
theorem test_decode_fbegin : decodeTableWord 32 0b00000000000000000000000000010000 = some .fbegin := by decide
theorem test_decode_plot : decodeTableWord 32 0b00000000000000000000000000010001 = some .plot := by decide
theorem test_decode_fcommit : decodeTableWord 32 0b00000000000000000000000000010010 = some .fcommit := by decide
theorem test_decode_rstart : decodeTableWord 32 0b00000000000000000000000000100000 = some .rstart := by decide
theorem test_decode_rnext : decodeTableWord 32 0b00000000000000000000000000100001 = some .rnext := by decide

/-- R62, R63. -/
theorem test_decode_rejects :
    [0x09#32, 0x0F#32, 0x13#32, 0x1F#32, 0x22#32, 0xFF#32, 0x100#32, 0x80000003#32].all
      (fun w => (decodeTableWord 32 w.toNat).isNone) = true := by decide

/-! Policy constants -/

/-- R13: 18 iterations in LOW, 20 in NORMAL. -/
theorem test_sqrt_iterations : sqrtIter .low = 18 ∧ sqrtIter .normal = 20 := by decide

/-- Byte 1 of row 1 in plane 2, counted by hand: 4 bytes of plane 1, 2 of row 0, 1 before it (R48). -/
theorem test_cell_index : cellIndex normalParams 2 1 1 = 7 ∧ bufferSize normalParams = 12 := by decide

/-! The commands, one step each (spec/95 L2) -/

theorem test_nop : ran 0x00 { lowState with opa := 5#32 } = some { lowState with opa := 5#32 } := by decide

theorem test_scaleup_low_wraps :
    (ran 0x01 { lowState with opa := 1024#32 }).map outputs = some [-32768, 4, 0x0A01] := by decide
theorem test_scaleup_normal :
    (ran 0x01 { normalState with opa := 0xFFFFFF80#32 }).map outputs = some [-32768, 0, 0] := by decide

theorem test_scaledn_low_truncates :
    (ran 0x02 { lowState with opa := BitVec.ofInt 32 (-33) }).map outputs = some [-1, 0, 0] := by decide
theorem test_scaledn_normal_narrow_operand :
    (ran 0x02 { normalState with opa := 0x00018000#32 }).map outputs = some [-128, 0, 0] := by decide

theorem test_mul_low_floors :
    (ran 0x03 { lowState with opa := BitVec.ofInt 32 (-3), opb := 5#32 }).map outputs = some [-1, 0, 0] := by decide
theorem test_mul_normal_wraps :
    (ran 0x03 { normalState with opa := BitVec.ofInt 32 (-32768), opb := 32767#32 }).map outputs =
      some [128, 4, 0x0A03] := by decide

theorem test_div_low_unsigned :
    (ran 0x04 { lowState with opa := 0xFFFFFFF9#32, opb := 3#32 }).map outputs = some [21770, 4, 0x0A04] := by decide
theorem test_div_normal_by_zero :
    (ran 0x04 { normalState with opa := 5#32, res := 77#32 }).map outputs = some [77, 2, 0x0904] := by decide

theorem test_sin_low_fourth_quadrant :
    (ran 0x05 { lowState with opa := 150#32 }).map outputs = some [-(lowTable[49] : Int), 0, 0] := by decide
theorem test_sin_normal_most_negative :
    (ran 0x05 { normalState with opa := 0x80000000#32 }).map outputs = some [-(normalTable[43] : Int), 0, 0] := by decide

theorem test_cos_low_wraps :
    (ran 0x06 { lowState with opa := 2147483598#32 }).map outputs = some [-(lowTable[48] : Int), 4, 0x0A06] := by decide
theorem test_cos_normal_at_zero : (ran 0x06 normalState).map outputs = some [(normalTable[49] : Int), 0, 0] := by decide

theorem test_sqrt_low_two : (ran 0x07 { lowState with opa := 2#32 }).map outputs = some [5, 0, 0] := by decide +kernel
theorem test_sqrt_normal_trace :
    (ran 0x07 { normalState with opa := 6400#32 }).map outputs = some [1280, 0, 0] := by decide +kernel

/-- L1.6: a 3-4-5 triangle. -/
theorem test_dist_normal_345 :
    (ran 0x08 { normalState with opc := 768#32, opd := 1024#32 }).map outputs = some [1280, 0, 0] := by decide +kernel
theorem test_dist_low_same_point :
    (ran 0x08 { lowState with
      opa := 5#32, opb := BitVec.ofInt 32 (-7), opc := 5#32, opd := BitVec.ofInt 32 (-7) }).map outputs = some [0, 0, 0] := by decide +kernel

/-- R101: padding bits are cleared too, and LIVE is kept. -/
theorem test_fbegin :
    (ran 0x10 { normalState with off := [(1, 0xFF#8)], live := [(2, 1#8)] }).map (fun t => (t.off, t.live)) =
      some ([], [(2, 1#8)]) := by decide

/-- PLOT(9, 0, 2): byte 1 of row 0 in planes 1 and 2 gets bit 1, and plane 3 loses it (R102). -/
theorem test_plot_sets_and_clears :
    (ran 0x11 { normalState with opa := 9#32, opc := 2#32, off := [(9, 0x03#8)] }).map (fun t => (t.off, t.errors)) =
      some ([(1, 0x02#8), (5, 0x02#8), (9, 0x01#8)], 0#8) := by decide

/-- PLOT(200, 0, 0): the coordinate is checked first (R123). -/
theorem test_plot_coordinate_first :
    (ran 0x11 { normalState with opa := 200#32 }).map (fun t => (t.off, outputs t)) = some ([], [0, 8, 0x0B11]) := by decide

theorem test_fcommit_copies :
    (ran 0x12 { normalState with off := [(1, 7#8)], live := [(2, 1#8)] }).map (fun t => (t.off, t.live, t.commits)) =
      some ([(1, 7#8)], [(1, 7#8)], 1#32) := by decide
theorem test_fcommit_direct_counts :
    (ran 0x12 { directState with live := [(2, 1#8)], commits := 0xFFFFFFFF#32 }).map (fun t => (t.live, t.commits)) =
      some ([(2, 1#8)], 0#32) := by decide

theorem test_rstart :
    (ran 0x20 { normalState with opb := 512#32, opc := 256#32, opd := 0x00012345#32 }).map
      (fun t => sequence t ++ [t.tstop.toInt, t.tdelta.toInt, t.delay.toNat]) =
      some [0, 1, 0, 0, 0, 0, 512, 256, 0x2345] := by decide
theorem test_rstart_zero_step :
    (ran 0x20 { normalState with opb := 10#32, opd := 5#32 }).map (fun t => sequence t ++ outputs t) =
      some [0, 0, 0, 0, 0, 0, 0, 0x20, 0x0D20] := by decide

theorem test_rnext_delays :
    (ran 0x21 { normalState with run := true, tstop := 512#16, tdelta := 256#16, delay := 3#16 }).map sequence =
      some [256, 1, 0, 1, 3, 1] := by decide
/-- T keeps the last frame's time, and the exact sum 32765 + 5 does not wrap (R106). -/
theorem test_rnext_ends_at_exact_sum :
    (ran 0x21 { normalState with run := true, t := 32765#16, tstop := 32767#16, tdelta := 5#16 }).map sequence =
      some [32765, 0, 1, 0, 0, 1] := by decide

/-! The window, TICK, SCAN, reset -/

/-- S3: a 16-bit write at 0x08. -/
theorem test_narrow_write : (issued (.write 0x08#6 .half 5#32) normalState).map (fun t => (t.opa, outputs t)) =
    some (0#32, [0, 0x80, 0x080F00]) := by decide
/-- S4: a read at 0x06. -/
theorem test_unaligned_read : (issued (.read 0x06#6 .word) normalState).map (fun t => (t.readData, outputs t)) =
    some (some 0#32, [0, 0x80, 0x060F00]) := by decide
/-- S12: CONFIG0 and CONFIG1 of the LOW build. -/
theorem test_config0 : (issued (rd .config0) lowState).map (·.readData) = some (some 0x00040203#32) := by decide
theorem test_config1 : (issued (rd .config1) lowState).map (·.readData) = some (some 0x00000104#32) := by decide
/-- R24: BUSY, RDONE, ERR, E_DZ and E_SEQ. -/
theorem test_status_read :
    (issued (rd .status) { lowState with busy := true, rdone := true, errors := 0x42#8 }).map (·.readData) =
      some (some 0x0000420D#32) := by decide
/-- R114. -/
theorem test_status_write : (issued (wr .status 0x0000FD00#32) { lowState with errors := 0xFF#8 }).map (·.errors) =
    some 0x02#8 := by decide
/-- R111: a narrow register reads sign-extended. -/
theorem test_time_read : (issued (rd .t) { lowState with t := 0xFFFB#16 }).map (·.readData) =
    some (some 0xFFFFFFFB#32) := by decide
/-- R62: the reserved bit makes 0x80000003 illegal, with OPCODE 03. -/
theorem test_illegal_word : (issued (wr .cmd 0x80000003#32) lowState).map outputs = some [0, 1, 0x0803] := by decide
/-- R67: a poll stays while BUSY = 1. -/
theorem test_poll_waits : (issued .poll { lowState with busy := true, wcnt := 1#16 }).map (·.host) = some [.poll] := by
  decide
theorem test_tick_ends_delay :
    (nextState (step { lowState with turns := [.tick], busy := true, wcnt := 1#16 })).map sequence =
      some [0, 0, 0, 0, 0, 0] := by decide
theorem test_scan_reads_live :
    (nextState (step { normalState with turns := [.scan 2 1 1], live := [(7, 9#8)] })).map (·.scanData) =
      some (some 9#8) := by decide
theorem test_reset_keeps_live :
    (nextState (step { normalState with
      turns := [.reset], opa := 3#32, off := [(1, 1#8)], live := [(2, 2#8)], held := some 3#32 })).map
      (fun t => (t.opa, t.off, t.live, t.held)) = some (0#32, [], [(2, 2#8)], none) := by decide

/-- The accesses of `plot 3, 1, 2` (R68). -/
theorem test_pseudo_plot : pseudoPlot 3#32 1#32 2#32 =
    [.write 0x08#6 .word 3#32, .write 0x0C#6 .word 1#32, .write 0x10#6 .word 2#32, .write 0x00#6 .word 0x11#32] := by
  decide

/-! Witnesses: concrete states and operands that meet the hypotheses of the obligations -/

/-- BuildsAreTheLegalParameters: a build at the upper bounds, one at LOW's, and parameters one past each. -/
theorem witness_builds :
    { normalParams with numRows := 255, numCols := 255, lineBytes := 255, numPlanes := 255 }.legal = true ∧
    { lowParams with numRows := 16, numCols := 16, lineBytes := 2 }.legal = true ∧
    { normalParams with numRows := 256 }.legal = false ∧ { normalParams with lineBytes := 0 }.legal = false ∧
    { lowParams with numRows := 17 }.legal = false ∧ { normalParams with base := 63 }.legal = false ∧
    { lowParams with liveBase := 0x38 }.legal = true ∧ { lowParams with liveBase := 0x39 }.legal = false ∧
    { lowParams with liveBase := 0x80 }.legal = true ∧ { lowParams with liveBase := 0x7F }.legal = false := by
  decide +kernel

/-- IllegalCommandRaisesEIll, each clause at both ends of its range. -/
theorem witness_illegal :
    (lowState.busy = false ∧ lowState.held = none) ∧
    (0x100#32).toNat / 256 ≠ 0 ∧ (0xFFFFFFFF#32).toNat / 256 ≠ 0 ∧
    (0x09 ≤ (0x09#32).toNat % 256 ∧ (0x0F#32).toNat % 256 ≤ 0x0F) ∧
    (0x13 ≤ (0x13#32).toNat % 256 ∧ (0x1F#32).toNat % 256 ≤ 0x1F) ∧
    0x22 ≤ (0x22#32).toNat % 256 ∧ 0x22 ≤ (0xFF#32).toNat % 256 := by decide

/-- StepRunsDecodedCommand and PlacedWordRunsNext. -/
theorem witness_step_runs :
    decode 0x00000021#32 = .ok .rnext ∧ lowState.busy = false ∧ lowState.held = none := by decide

/-- ScaleupScalesAndWraps: the ends of the ranges that fit, and the first values past them. -/
theorem witness_scaleup :
    lowState.build.prec = .low ∧ normalState.build.prec = .normal ∧
    narrowSigned 0x0000FC00#32 = -1024 ∧ narrowSigned 0x000003FF#32 = 1023 ∧
    narrowSigned 0x0000FBFF#32 < -1024 ∧ 1023 < narrowSigned 0x00000400#32 ∧
    narrowSigned 0x0000FF80#32 = -128 ∧ narrowSigned 0x0000007F#32 = 127 ∧
    narrowSigned 0x0000FF7F#32 < -128 ∧ 127 < narrowSigned 0x00000080#32 := by decide

/-- WideMultiplyStep: a product that is not negative, and one that is. -/
theorem witness_mulw : (0 : Int) ≤ (0x8000#16).toInt * (0x8000#16).toInt ∧ (0xFFFF#16).toInt * (1#16).toInt < 0 := by
  decide

/-- MulRoundsByPolicy: the largest quotient that fits, and products past it on both sides. -/
theorem witness_mul :
    mulQuotient .normal (narrowSigned 0x00007FFF#32) (narrowSigned 0x00000100#32) = 32767 ∧
    32767 < mulQuotient .low (narrowSigned 0x00008000#32) (narrowSigned 0x00008000#32) ∧
    mulQuotient .low (narrowSigned 0x00008000#32) (narrowSigned 0x00000020#32) = -32768 ∧
    mulQuotient .low (narrowSigned 0x00008000#32) (narrowSigned 0x00000021#32) < -32768 := by decide

/-- DivByPolicy: a zero divisor; LOW below and at 2^32, with a quotient at and past 32767; NORMAL with a scaled dividend
that fits and one that does not, with a quotient at each end and past it. -/
theorem witness_div :
    lowState.opb = 0#32 ∧ (1#32 : Word) ≠ 0#32 ∧
    (0x07FFFFFF#32).toNat * 32 < 2 ^ 32 ∧ 2 ^ 32 ≤ (0x08000000#32).toNat * 32 ∧
    (1023#32).toNat * 32 / 1 ≤ 32767 ∧ 32767 < (1024#32).toNat * 32 / 1 ∧
    s32 ((0x007FFFFF#32).toInt * 256) = (0x007FFFFF#32).toInt * 256 ∧
    s32 ((0x00800000#32).toInt * 256) ≠ (0x00800000#32).toInt * 256 ∧
    (s32 ((0xFFFFFF80#32).toInt * 256)).tdiv (1#32).toInt = -32768 ∧
    (s32 ((0xFFFFFF7F#32).toInt * 256)).tdiv (1#32).toInt < -32768 ∧
    32767 < (s32 ((128#32).toInt * 256)).tdiv (1#32).toInt := by decide

/-- CosIsShiftedSine: the last angle that does not wrap and the first that does, in both policies. -/
theorem witness_cos :
    (2147483597#32).toInt + 50 < 2 ^ 31 ∧ 2 ^ 31 ≤ (2147483598#32).toInt + 50 ∧
    (2147483245#32).toInt + 402 < 2 ^ 31 ∧ 2 ^ 31 ≤ (2147483246#32).toInt + 402 := by decide

/-- SineIsOdd: an angle beside each of the two left out, and 0. -/
theorem witness_odd :
    (0x80000001#32 : Word) ≠ 0x80000000#32 ∧ (0x80000001#32 : Word) ≠ 0#32 ∧ lowState.opa = 0#32 := by decide

/-- SinePeriod: the ends of both half lines. -/
theorem witness_period :
    (0 : Int) ≤ 0 ∧ (-1601 : Int) + 200 * sinDiv normalBuild.prec < 0 ∧ lowBuild.prec = .low := by decide

/-- RootRegistersStayBounded: the last iteration. -/
theorem witness_root_bound : (18 : Nat) ≤ sqrtIter .low ∧ (20 : Nat) ≤ sqrtIter .normal := by decide

/-- SqrtIsFloorRoot: the largest operand whose root fits, and the first whose root does not. -/
theorem witness_sqrt :
    (67108863#32).toNat < 67108864 ∧ 67108864 ≤ (67108864#32).toNat ∧
    (4194303#32).toNat < 4194304 ∧ 4194304 ≤ (4194304#32).toNat := by decide

/-- DistIsRootOfWideSum: a difference at each end of the range that fits, the next one past it, and a root past 32767
whose differences fit. -/
theorem witness_dist :
    narrowSigned 0x00007FFF#32 - narrowSigned 0#32 = 32767 ∧ narrowSigned 0x00008000#32 - narrowSigned 0#32 = -32768 ∧
    32767 < narrowSigned 0x00007FFF#32 - narrowSigned 0x0000FFFF#32 ∧
    narrowSigned 0x00008000#32 - narrowSigned 1#32 < -32768 ∧
    32767 < tsqrt .low (BitVec.ofInt 32 (sumOfSquares .low (-32768) (-32768))) := by decide +kernel

/-- DistIsSymmetric: differences beside the two that are left out. -/
theorem witness_dist_symmetric :
    (narrowSigned 0x00007FFF#32 - narrowSigned 0#32).natAbs ≠ 32768 ∧
    (narrowSigned 0x00008000#32 - narrowSigned 1#32).natAbs ≠ 32768 := by decide

/-- LiveLiesOutsideWindow: the last byte of a LIVE that ends where the window begins, and the first byte of one that
begins where the window ends. -/
theorem witness_live_outside :
    { lowParams with liveBase := 0x38 }.legal = true ∧
    cellExists { lowParams with liveBase := 0x38 } 2 3 0 = true ∧
    liveAddress { lowParams with liveBase := 0x38 } 2 3 0 = 0x3F ∧
    { lowParams with liveBase := 0x80 }.legal = true ∧
    cellExists { lowParams with liveBase := 0x80 } 1 0 0 = true ∧
    liveAddress { lowParams with liveBase := 0x80 } 1 0 0 = 0x80 := by decide +kernel

/-- BufferPlacesAreDistinct, ScanReadsLiveOnly: the first and the last byte, and a triple one past each bound. -/
theorem witness_cells :
    cellExists normalParams 1 0 0 = true ∧ cellExists normalParams 3 1 1 = true ∧ cellExists normalParams 0 0 0 = false ∧
    cellExists normalParams 4 0 0 = false ∧ cellExists normalParams 1 2 0 = false ∧
    cellExists normalParams 1 0 2 = false := by decide

/-- FbeginClearsTarget, FcommitPublishesFrame and the statements by buffer mode: a build of each mode. -/
theorem witness_modes : normalState.build.doubleBuffer = true ∧ directState.build.doubleBuffer = false := by decide

/-- PlotMarksEveryPlane, the PLOT that completes, and PlotEncodesLevelInPlanes: the last column and row, at the lowest and the highest level. -/
theorem witness_plot :
    normalState.off.wf ∧ normalState.live.wf ∧ narrowUnsigned 9#32 < normalState.build.numCols ∧
    narrowUnsigned 1#32 < normalState.build.numRows ∧ 1 ≤ narrowUnsigned 1#32 ∧
    narrowUnsigned 1#32 ≤ normalState.build.numPlanes ∧ 1 ≤ narrowUnsigned 3#32 ∧
    narrowUnsigned 3#32 ≤ normalState.build.numPlanes := by decide

/-- PlotMarksEveryPlane, the errors: the first column, row and level past the display, and level 0. -/
theorem witness_plot_errors :
    normalState.build.numCols ≤ narrowUnsigned 10#32 ∧ normalState.build.numRows ≤ narrowUnsigned 2#32 ∧
    narrowUnsigned 9#32 < normalState.build.numCols ∧ narrowUnsigned 1#32 < normalState.build.numRows ∧
    narrowUnsigned 0#32 < 1 ∧ normalState.build.numPlanes < narrowUnsigned 4#32 := by decide

/-- RstartStartsSequence and SequencePerformsFrameCount: a step of each sign, with a range of one and an empty one. -/
theorem witness_rstart :
    normalState.run = false ∧ narrowSigned 1#32 ≠ 0 ∧ narrowSigned 0x0000FFFF#32 ≠ 0 ∧
    (0 < narrowSigned 1#32 ∧ narrowSigned 5#32 < narrowSigned 6#32 ∧ narrowSigned 5#32 ≤ narrowSigned 5#32) ∧
    (narrowSigned 0x0000FFFF#32 < 0 ∧ narrowSigned 5#32 < narrowSigned 6#32) := by decide

/-- RstartStartsSequence, the errors: a sequence that runs, and a step whose low half is 0 though its word is not. -/
theorem witness_rstart_errors :
    { normalState with run := true }.run = true ∧ normalState.run = false ∧ narrowSigned 0x00010000#32 = 0 := by decide

/-- RnextEndsTimeStep: a running state whose exact sum is the last in range, and the first out of range, with a delay
and without one. -/
theorem witness_rnext :
    { normalState with run := true }.run = true ∧
    inRange (1#16 : Half).toInt (6#16 : Half).toInt ((4#16 : Half).toInt + (1#16 : Half).toInt) = true ∧
    inRange (1#16 : Half).toInt (6#16 : Half).toInt ((5#16 : Half).toInt + (1#16 : Half).toInt) = false ∧
    (1#16 : Half) ≠ 0#16 ∧ normalState.delay = 0#16 := by decide

/-- SequencePerformsFrameCount: the counts of vectors Q1, Q7 and Q8, and the largest one (R109). -/
theorem witness_frame_count :
    frameCount 0 512 256 = 2 ∧ frameCount 10 0 (-3) = 4 ∧ frameCount (-5) 5 (-1) = 0 ∧
    frameCount (-32768) 32767 1 = 65535 := by decide +kernel

/-- TickCountsDelayDown. -/
theorem witness_tick : normalState.wcnt = 0#16 ∧ { normalState with wcnt := 1#16 }.wcnt ≠ 0#16 := by decide

/-- A state of the invariant with a running sequence, a delay, and a held write. -/
def busyState : State :=
  { normalState with
    busy := true, wcnt := 2#16, run := true, t := 1#16, tstop := 5#16, tdelta := 1#16, delay := 2#16,
    errors := 2#8, errinfo := 0x000904#24, res := 0xFFFF8000#32, off := [(1, 7#8)], live := [(11, 1#8)],
    held := some 0x00000021#32 }

theorem busyState_inv : Inv busyState := by constructor <;> decide

/-- DelayLastsWcntTicks, HeldCommandRunsAfterDelay and StepKeepsInvariant: their state, and a step of it. -/
theorem witness_invariant :
    Inv busyState ∧ busyState.held = some 0x00000021#32 ∧ busyState.turns = [] ∧
    decode 0x00000021#32 = .ok .rnext ∧ step busyState = .next { busyState with wcnt := 1#16 } :=
  ⟨busyState_inv, by decide, by decide, by decide, rfl⟩

/-- HostReadReturnsRegister, HostWriteSetsOperandsOnly, StatusWriteClearsWrittenOnes. -/
theorem witness_host_access : normalState.held = none ∧ Reg.opa ≠ .cmd ∧ Reg.opa ≠ .status ∧ Reg.config1 ≠ .cmd := by
  decide

/-- IllegalAccessRaisesEBus: a width at a legal offset, and an offset beside each end of a word. -/
theorem witness_illegal_access :
    normalState.held = none ∧ Width.byte ≠ .word ∧ Width.half ≠ .word ∧ (0x01#6).toNat % 4 ≠ 0 ∧
    (0x3F#6).toNat % 4 ≠ 0 := by decide

/-- PollEndsWhenIdle: a state of the invariant without a held write, with a delay, and one without. -/
theorem witness_poll :
    { busyState with held := none }.held = none ∧ Inv { busyState with held := none } ∧
    Inv { busyState with held := none, wcnt := 0#16, busy := false } := by
  refine ⟨rfl, ?_, ?_⟩ <;> constructor <;> decide

/-- CommandWriteIsHeldWhileBusy. -/
theorem witness_held : busyState.busy = true ∧ { busyState with held := none }.held = none := by decide

/-- ErrorBitsAreSticky: a step that clears a set bit, by STATUS. -/
theorem witness_sticky :
    ∃ t, step { busyState with held := none, host := [wr .status 0x00000200#32] } = .next t ∧
      busyState.errors.getLsbD 1 = true ∧ t.errors.getLsbD 1 = false := ⟨_, rfl, by decide, by decide⟩

/-- OnlySequencerChangesRun: a step that changes RUN. -/
theorem witness_run :
    ∃ t, step ({ normalState with opb := 1#32, opc := 1#32 }.withFetchWord 32 0x20) = .next t ∧ t.run ≠ normalState.run :=
  ⟨_, rfl, by decide⟩

/-- LiveChangesOnlyByCommit and CommitsCountsFrames: a step that commits a frame. -/
theorem witness_commit :
    ∃ t, step ({ normalState with off := [(1, 7#8)] }.withFetchWord 32 0x12) = .next t ∧
      normalState.build.doubleBuffer = true ∧ readByte t.live 1 ≠ readByte normalState.live 1 := ⟨_, rfl, by decide, by decide⟩

/-- DirectModeWritesLiveOnly: a PLOT in direct mode. -/
theorem witness_direct :
    ∃ t, exec .plot { directState with opc := 1#32 } = .next t ∧ directState.build.doubleBuffer = false ∧
      t.live = [(0, 1#8)] := ⟨_, rfl, by decide, by decide⟩

/-- EachCommandRecordsItsOwnErrors, OnlyArithmeticWritesResult, CommandsKeepOperands: a DIV by zero. -/
theorem witness_error :
    ∃ t, exec .div lowState = .next t ∧ lowState.opb = 0#32 ∧ t.errinfo = 0x000904#24 := ⟨_, rfl, by decide, by decide⟩

end Sys2Proof.Tests
end

section
/-! Proofs of the statements on the scope of the model: the legal builds (R2 to R15), the constancy of the build, and
the command a step runs (R19, R51, R113). -/

namespace Sys2Proof.Machine

/-! The checks on parameters, each as the rule states it -/

/-- The model refuses exactly the parameters that fail the checks. -/
theorem exists_build_iff_legal (p : Params) : (∃ b : Build, b.toParams = p) ↔ p.legal = true := by
  constructor
  · rintro ⟨b, rfl⟩
    exact b.legal
  · intro h
    exact ⟨⟨p, h⟩, rfl⟩

theorem sizesOk_iff (p : Params) : p.sizesOk = true ↔
    (1 ≤ p.numRows ∧ p.numRows ≤ 255) ∧ (1 ≤ p.numCols ∧ p.numCols ≤ 255) ∧
    (1 ≤ p.lineBytes ∧ p.lineBytes ≤ 255) ∧ (1 ≤ p.numPlanes ∧ p.numPlanes ≤ 255) := by
  simp [Params.sizesOk]

theorem lowOk_iff (p : Params) : p.lowOk = true ↔ (p.prec = .low → p.numRows ≤ 16 ∧ p.numCols ≤ 16) := by
  unfold Params.lowOk
  cases p.prec <;> simp

/-- The entries of a vector in order, so that `List.ofFn`'s lemmas turn a check over them into one over indices. -/
theorem vector_toList_eq_ofFn {α : Type} {n : Nat} (v : Vector α n) : v.toList = List.ofFn fun k : Fin n => v[k] := by
  obtain ⟨⟨l⟩, rfl⟩ := v
  exact (List.ofFn_get l).symm

theorem sinTableOk_iff (p : Params) : p.sinTableOk = true ↔ ∀ k : Fin 50, p.sinTable[k] ≤ p.prec.fix := by
  simp only [Params.sinTableOk, List.all_eq_true, decide_eq_true_eq, vector_toList_eq_ofFn, List.forall_mem_ofFn_iff]

/-- The bytes with one bit set are the shifts of 1. -/
theorem mem_oneBitBytes_iff (m : Byte) : m ∈ oneBitBytes ↔ ∃ j : Fin 8, m = 1#8 <<< j.val := by
  simp [oneBitBytes, Fin.exists_fin_succ]

theorem pixelMaskOk_iff (p : Params) : p.pixelMaskOk = true ↔
    (∀ i : Fin 8, ∃ j : Fin 8, p.pixelMask[i] = 1#8 <<< j.val) ∧
    ∀ i j : Fin 8, p.pixelMask[i] = p.pixelMask[j] → i = j := by
  simp only [Params.pixelMaskOk, Bool.and_eq_true, List.all_eq_true, List.contains_iff_mem, decide_eq_true_eq,
    vector_toList_eq_ofFn, List.forall_mem_ofFn_iff, mem_oneBitBytes_iff, List.nodup_ofFn, Function.Injective]

theorem liveOk_iff (p : Params) : p.liveOk = true ↔
    p.liveBase + bufferSize p ≤ p.base ∨ p.base + 64 ≤ p.liveBase := by
  simp [Params.liveOk, bufferSize]

/-- Settles O1: a build is legal parameters, and each check is its rule. -/
theorem buildsAreTheLegalParameters : Obligations.BuildsAreTheLegalParameters := by
  intro p
  rw [exists_build_iff_legal]
  simp only [Params.legal, Params.columnsOk, Params.baseOk, Bool.and_eq_true, decide_eq_true_eq, sizesOk_iff,
    lowOk_iff, sinTableOk_iff, pixelMaskOk_iff, liveOk_iff, and_assoc]

/-! The build is constant -/

@[simp] theorem hostRead_build (k : BitVec 6) (w : Width) (s : State) : (hostRead k w s).build = s.build := by
  unfold hostRead
  split <;> rfl

@[simp] theorem writeReg_build (r : Reg) (d : Word) (s : State) : (writeReg r d s).build = s.build := by
  cases r <;> rfl

@[simp] theorem illegalCommand_build (x : DecodeError) (s : State) : (illegalCommand x s).build = s.build := by
  cases x <;> rfl

/-- Settles O48, by the cases of a step: a command keeps the build by `exec_around`, and the other agents' updates
do by their field lemmas. -/
theorem buildIsConstant : Obligations.BuildIsConstant := by
  intro s t h
  cases step_cases h with
  | command d i hd ht hb src held host e => exact (exec_around e).2.build
  | idle _ e | scan _ _ _ _ _ e | reset _ e | poll _ _ _ _ e | badWrite _ _ _ _ _ _ _ _ e
  | hold _ _ _ _ _ _ _ _ _ _ e => subst e; rfl
  | tick _ e | read _ _ _ _ _ _ e | write _ _ _ _ _ _ _ _ _ e | illegal _ _ _ _ _ _ _ e => subst e; simp

/-! The host's step that runs a command -/

theorem performCommand_of_decode {w : Word} {i : Instr} (hd : decode w = .ok i) (s : State) :
    performCommand w s = exec i s := by
  simp only [performCommand, hd]

/-- A CMD write that the host issues, and that nothing holds back, is performed together with its command (R51). -/
theorem step_commandWrite {s : State} {w : Word} {i : Instr} {rest : List HostOp} (ht : nextTurn s = .host)
    (hd : decode w = .ok i) (hb : s.busy = false) (hh : s.held = none)
    (hs : s.host = .write 0x00#6 .word w :: rest) : step s = exec i { takeTurn s with host := rest } := by
  have hlegal : accessLegal 0x00#6 .word = true := accessLegal_offset .cmd
  have hcmd : regAt 0x00#6 = .cmd := regAt_offset .cmd
  simp [step, agentStep, ht, hostStep, hh, hs, hostWrite, hlegal, hcmd, commandWrite, hb, performCommand_of_decode hd]

/-- A held CMD write is performed once BUSY = 0 (R113). -/
theorem step_heldCommand {s : State} {w : Word} {i : Instr} (ht : nextTurn s = .host) (hd : decode w = .ok i)
    (hb : s.busy = false) (hh : s.held = some w) : step s = exec i { takeTurn s with held := none } := by
  simp [step, agentStep, ht, hostStep, hh, hb, performCommand_of_decode hd]

/-- Where no turn is listed, a host with a write to issue moves. -/
theorem nextTurn_of_pendingWrite {s : State} {k : BitVec 6} {width : Width} {w : Word} {rest : List HostOp}
    (ht : s.turns = []) (hh : s.held = none) (hs : s.host = .write k width w :: rest) : nextTurn s = .host := by
  simp [nextTurn, hostReady, ht, hh, hs]

/-- Settles O5: the turn is the host's, and its step performs the word it issues or the word it held. -/
theorem stepRunsDecodedCommand : Obligations.StepRunsDecodedCommand := by
  intro s w i ops ts hd hb
  refine ⟨fun hh => ?listed, fun hh => ?unlisted, ?held⟩
  case listed => exact step_commandWrite rfl hd hb hh rfl
  case unlisted => exact step_commandWrite (nextTurn_of_pendingWrite rfl hh rfl) hd hb hh rfl
  case held => exact step_heldCommand rfl hd hb rfl

end Sys2Proof.Machine
end

section
/-! Proof that every step keeps the invariant of the machine: one lemma an update of the state, then the commands, then
the agents' steps. -/

namespace Sys2Proof.Machine

/-! Which updates keep the invariant -/

/-- The fields of the agents around FPCORE are none of the invariant's. -/
theorem inv_around {s : State} (h : Inv s) (held : Option Word) (host : List HostOp) (turns : List Turn)
    (rd : Option Word) (sd : Option Byte) :
    Inv { s with held := held, host := host, turns := turns, readData := rd, scanData := sd } :=
  inv_of_same h ⟨rfl, rfl, rfl, rfl, rfl, rfl, rfl, rfl, rfl⟩ ⟨rfl, rfl⟩ rfl rfl

theorem inv_raise {s : State} (h : Inv s) (x : ErrorCode) (o f : Byte) : Inv (raise x o f s) :=
  inv_of_error h ⟨rfl, rfl, rfl, rfl, rfl, rfl, rfl, rfl, rfl⟩ x o f rfl rfl rfl

theorem inv_flagOv {s : State} (h : Inv s) (i : Instr) (ov : Bool) : Inv (flagOv i ov s) := by
  unfold flagOv
  split
  · exact inv_raise h ..
  · exact h

/-- The low half of a sign-extended half is the half. -/
theorem extractLsb'_signExtend (v : Half) : (v.signExtend 32).extractLsb' 0 16 = v := by
  ext i hi
  simp [BitVec.getLsbD_signExtend, hi]
  omega

theorem inv_setResult {s : State} (h : Inv s) {v : Int} (hv : -32768 ≤ v ∧ v ≤ 32767) : Inv (setResult v s) :=
  { h with
    resultNarrow := by
      rw [setResult_res, ofInt_of_narrow hv, extractLsb'_signExtend] }

theorem inv_setTarget {s : State} (h : Inv s) {m : Memory} (hw : m.wf) (hi : m.within (bufferSize s.build.toParams)) :
    Inv (setTarget m s) := by
  cases hd : s.build.doubleBuffer with
  | true =>
    rw [setTarget, if_pos hd]
    exact { h with offForm := hw, offInside := hi, noOffWhenDirect := fun hd' => by simp [hd] at hd' }
  | false =>
    rw [setTarget, if_neg (by simp [hd])]
    exact { h with liveForm := hw, liveInside := hi }

theorem inv_clearTarget {s : State} (h : Inv s) (n : Nat) : Inv (setTarget (clearBelow n (target s)) s) :=
  have ⟨hw, hi⟩ := target_form h
  inv_setTarget h (wf_clearBelow hw n) (within_clearBelow hi n)

/-- A column of the display lies in a byte of its row (R6). -/
theorem column_byte_lt {b : Build} {c : Nat} (h : c < b.numCols) : c / 8 < b.lineBytes := by
  have := build_sizes b
  omega

theorem inv_plotPixel {s : State} (h : Inv s) {c r : Nat} (l : Nat) (hc : c < s.build.numCols)
    (hr : r < s.build.numRows) : Inv (plotPixel c r l s) :=
  have ⟨hw, hi⟩ := target_form h
  inv_setTarget h (wf_markPlanes _ _ _ _ _ _ hw) (within_markPlanes _ _ _ le_rfl hr (column_byte_lt hc) hi)

theorem inv_commitFrame {s : State} (h : Inv s) : Inv (commitFrame s) := by
  refine inv_of_buffers h ?_ ?_ (by simpa using h.offForm) ?_ (by simpa using h.offInside) ?_
    (by simpa using h.noOffWhenDirect)
  · constructor <;> simp
  · constructor <;> simp
  · rw [commitFrame_live]
    split
    · exact wf_copyBelow h.offForm h.liveForm _
    · exact h.liveForm
  · rw [commitFrame_live]
    split
    · exact within_copyBelow h.offInside h.liveInside _
    · exact h.liveInside

theorem inv_startSequence {s : State} (h : Inv s) (htd : narrowSigned s.opc ≠ 0) : Inv (startSequence s) :=
  { h with
    notBothRunAndDone := by simp [startSequence]
    runningInRange := fun hrun => ⟨fun h0 => htd (congrArg BitVec.toInt h0), hrun⟩ }

/-- The time that a sequence steps to is the exact sum, so the range test of R106 holds of T itself. -/
theorem inv_advance {s : State} (h : Inv s) : Inv (advance s) := by
  unfold advance
  split
  · next hin =>
    exact { h with
      runningInRange := fun hrun => ⟨(h.runningInRange hrun).1, by rw [nextTime_narrow hin]; exact hin⟩ }
  · exact { h with notBothRunAndDone := by simp, runningInRange := by simp }

theorem inv_startDelay {s : State} (h : Inv s) : Inv (startDelay s) :=
  { h with busyWhileWaiting := by simp }

theorem inv_tickStep {s : State} (h : Inv s) : Inv (tickStep s) := by
  have hbusy := tickStep_busy_iff s h.busyWhileWaiting
  by_cases hz : s.wcnt = 0#16
  · rw [tickStep, if_pos hz]
    exact h
  · rw [tickStep, if_neg hz] at hbusy ⊢
    exact { h with busyWhileWaiting := hbusy }

/-- Right after reset the invariant holds, whatever LIVE holds in canonical form. -/
theorem inv_afterReset {b : Build} {live : Memory} (hw : live.wf) (hi : live.within (bufferSize b.toParams)) :
    Inv (State.afterReset b live) where
  busyWhileWaiting := by simp [State.afterReset]
  notBothRunAndDone := by simp [State.afterReset]
  runningInRange := nofun
  resultNarrow := by simp [State.afterReset]
  errinfoNamesCode := .inl rfl
  errorHasInfo h := absurd rfl h
  offForm := wf_nil
  liveForm := hw
  offInside := nofun
  liveInside := hi
  noOffWhenDirect _ := rfl

theorem inv_resetEvent {s : State} (h : Inv s) : Inv (resetEvent s) :=
  inv_around (inv_afterReset h.liveForm h.liveInside) none s.host s.turns s.readData s.scanData

theorem inv_hostRead {s : State} (h : Inv s) (k : BitVec 6) (w : Width) : Inv (hostRead k w s) := by
  unfold hostRead
  split
  · exact inv_around h s.held s.host s.turns _ s.scanData
  · exact inv_around (inv_raise h ..) s.held s.host s.turns _ s.scanData

/-- Clearing error bits leaves ERRINFO, so a bit that is still set has its record. -/
theorem inv_writeStatus {s : State} (h : Inv s) (d : Word) : Inv (writeStatus d s) :=
  { h with
    errorHasInfo := fun he => h.errorHasInfo fun h0 => he (by simp [writeStatus, clearWritten, h0]) }

theorem inv_writeReg {s : State} (h : Inv s) (r : Reg) (d : Word) : Inv (writeReg r d s) := by
  cases r
  case status => exact inv_writeStatus h d
  all_goals exact { h with }

theorem inv_exec {i : Instr} {s t : State} (h : Inv s) (he : exec i s = .next t) : Inv t := by
  cases exec_cases he with
  | nop _ e => subst e; exact h
  | abort x _ e => subst e; exact inv_raise h ..
  | result ov v _ _ hv e => subst e; exact inv_setResult (inv_flagOv h i ov) hv
  | clear _ e => subst e; exact inv_clearTarget h _
  | plot _ hc hr _ e => subst e; exact inv_plotPixel h _ hc hr
  | commit _ e => subst e; exact inv_commitFrame h
  | start _ _ htd e => subst e; exact inv_startSequence h htd
  | frame _ _ e => subst e; exact inv_startDelay (inv_advance (inv_commitFrame h))

/-- Settles O47, by the cases of a step: each agent's update keeps the invariant, and a command does by `inv_exec`. -/
theorem stepKeepsInvariant : Obligations.StepKeepsInvariant := by
  intro s t h hst
  have hissued (held : Option Word) (host : List HostOp) : Inv { takeTurn s with held := held, host := host } :=
    inv_around h held host s.turns.tail s.readData s.scanData
  have hturn : Inv (takeTurn s) := hissued s.held s.host
  cases step_cases hst with
  | idle _ e => subst e; exact hturn
  | tick _ e => subst e; exact inv_tickStep hturn
  | scan _ _ _ _ _ e => subst e; exact inv_around hturn ..
  | reset _ e => subst e; exact inv_resetEvent hturn
  | read k w rest _ _ _ e => subst e; exact inv_hostRead (hissued _ _) k w
  | poll _ _ _ _ e => subst e; exact inv_around hturn ..
  | badWrite _ _ _ _ _ _ _ _ e => subst e; exact inv_raise (hissued _ _) ..
  | write k _ d _ _ _ _ _ _ e => subst e; exact inv_writeReg (hissued _ _) (regAt k) d
  | hold _ _ _ _ _ _ _ _ _ _ e => subst e; exact hissued _ _
  | command _ _ _ _ _ _ held host e => exact inv_exec (hissued held host) e
  | illegal _ _ hd _ _ held host e =>
    subst e
    rw [illegalCommand_eq hd]
    exact inv_raise (hissued held host) ..

end Sys2Proof.Machine
end

section
/-! Proofs of the statements on the fields of the state: the buffers' places, the delay, CONFIG, what a command or a
step can change in the operands, the error bits, RES, RUN, the buffers and COMMITS, then the register window, SCAN, and
the values at reset. -/

namespace Sys2Proof.Machine

/-! The places of the buffers' bytes -/

theorem cellExists_iff (g : Params) (p r b : Nat) :
    cellExists g p r b = true ↔ (1 ≤ p ∧ p ≤ g.numPlanes) ∧ r < g.numRows ∧ b < g.lineBytes := by
  simp only [cellExists, Bool.and_eq_true, decide_eq_true_eq, and_assoc]

/-- Settles O24: a place is a number in mixed radix, so it is in range and its digits are determined. -/
theorem bufferPlacesAreDistinct : Obligations.BufferPlacesAreDistinct := by
  intro g p r b p' r' b' h
  refine ⟨cellIndex_lt h, ?_, fun h' heq => ?_⟩
  · rw [liveAddress, cellIndex, Nat.add_assoc]
  · rw [cellExists_iff] at h h'
    obtain ⟨⟨hp, -⟩, hr, hb⟩ := h
    obtain ⟨⟨hp', -⟩, hr', hb'⟩ := h'
    exact cellIndex_inj hp hp' hr hr' hb hb' heq

/-! The delay -/

/-- TICK steps count WCNT down, and BUSY stays in step with it (R25, R107). -/
theorem afterTicks_busy_wcnt (n : Nat) {s : State} (h : s.busy = true ↔ s.wcnt ≠ 0#16) :
    ((afterTicks n s).busy = true ↔ (afterTicks n s).wcnt ≠ 0#16) ∧
      (afterTicks n s).wcnt.toNat = s.wcnt.toNat - n := by
  induction n generalizing s with
  | zero => exact ⟨h, rfl⟩
  | succ n ih =>
    obtain ⟨hbusy, hwcnt⟩ := ih (tickStep_busy_iff s h)
    refine ⟨hbusy, hwcnt.trans ?_⟩
    rw [tickStep_wcnt_toNat, Nat.sub_sub, Nat.add_comm]

/-- Settles O32: BUSY is 1 while WCNT is not 0, and WCNT is not 0 for as many TICK steps as it counts. -/
theorem delayLastsWcntTicks : Obligations.DelayLastsWcntTicks := by
  intro s n h
  obtain ⟨hbusy, hwcnt⟩ := afterTicks_busy_wcnt n h.busyWhileWaiting
  refine ⟨?_, hwcnt⟩
  rw [hbusy, half_ne_zero_iff, hwcnt]
  omega

/-! CONFIG0 and CONFIG1 -/

/-- The fields of CONFIG0, from bit 0 up (R34). -/
theorem config0Word_fields (g : Params) :
    (config0Word g).extractLsb' 0 1 = BitVec.ofBool (decide (g.prec = .low)) ∧
    (config0Word g).extractLsb' 1 1 = BitVec.ofBool g.doubleBuffer ∧
    (config0Word g).extractLsb' 2 6 = 0#6 ∧ (config0Word g).extractLsb' 8 8 = BitVec.ofNat 8 g.numPlanes ∧
    (config0Word g).extractLsb' 16 8 = BitVec.ofNat 8 g.numRows ∧ (config0Word g).extractLsb' 24 8 = 0#8 := by
  simp (disch := decide) only [config0Word, BitVec.extractLsb'_append_eq_of_le, BitVec.extractLsb'_append_eq_of_add_le,
    Nat.reduceSub, BitVec.extractLsb'_eq_self, and_self]

/-- The fields of CONFIG1, from bit 0 up (R34). -/
theorem config1Word_fields (g : Params) :
    (config1Word g).extractLsb' 0 8 = BitVec.ofNat 8 g.numCols ∧
    (config1Word g).extractLsb' 8 8 = BitVec.ofNat 8 g.lineBytes ∧ (config1Word g).extractLsb' 16 16 = 0#16 := by
  simp (disch := decide) only [config1Word, BitVec.extractLsb'_append_eq_of_le, BitVec.extractLsb'_append_eq_of_add_le,
    Nat.reduceSub, BitVec.extractLsb'_eq_self, and_self]

/-- The bit of a word that a one-bit field holds. -/
theorem getLsbD_of_extractLsb'_one {w : Word} {k : Nat} {b : Bool} (h : w.extractLsb' k 1 = BitVec.ofBool b) :
    w.getLsbD k = b := by
  have := congrArg (BitVec.getLsbD · 0) h
  simpa using this

/-- A size of a build, 1 to 255, is reported whole in its 8-bit field (R6, R34). -/
theorem size_field_toNat {n : Nat} (h : n ≤ 255) : (BitVec.ofNat 8 n).toNat = n :=
  Nat.mod_eq_of_lt (by omega)

/-- Settles O37: the fields are the build's, whole because a size is below 256, and no step changes the build. -/
theorem configReportsBuild : Obligations.ConfigReportsBuild := by
  constructor
  · rintro s _ _ rfl rfl
    obtain ⟨hprec, hdbuf, h0, hplanes, hrows, h1⟩ := config0Word_fields s.build.toParams
    obtain ⟨hcols, hbytes, h2⟩ := config1Word_fields s.build.toParams
    obtain ⟨-, rows, -, cols, -, bytes, -, planes, -⟩ := build_sizes s.build
    simp only [readReg, getLsbD_of_extractLsb'_one hprec, getLsbD_of_extractLsb'_one hdbuf, hplanes, hrows, hcols,
      hbytes, size_field_toNat rows, size_field_toNat cols, size_field_toNat bytes, size_field_toNat planes,
      decide_eq_true_eq, h0, h1, h2, and_self]
  · rintro s t h r (rfl | rfl) <;> simp only [readReg, buildIsConstant s t h]

/-! The operand registers -/

/-- Settles O49, by `exec_around`. -/
theorem commandsKeepOperands : Obligations.CommandsKeepOperands := fun _ _ _ h => (exec_around h).1

/-! The error bits -/

/-- Every error bit that is set in s is set in t. -/
def KeepsErrorBits (s t : State) : Prop := ∀ k, s.errors.getLsbD k = true → t.errors.getLsbD k = true

theorem keepsErrorBits_of_errors_eq {s t : State} (h : t.errors = s.errors) : KeepsErrorBits s t := fun _ hk => h ▸ hk

theorem keepsErrorBits_raise (x : ErrorCode) (o f : Byte) (s : State) : KeepsErrorBits s (raise x o f s) :=
  fun _ hk => by simp [hk]

theorem keepsErrorBits_flagOv (i : Instr) (ov : Bool) (s : State) : KeepsErrorBits s (flagOv i ov s) := by
  unfold flagOv
  split
  · exact keepsErrorBits_raise .ov i.opcode 0#8 s
  · exact keepsErrorBits_of_errors_eq rfl

theorem keepsErrorBits_hostRead (k : BitVec 6) (w : Width) (s : State) : KeepsErrorBits s (hostRead k w s) := by
  unfold hostRead
  split
  · exact keepsErrorBits_of_errors_eq rfl
  · exact keepsErrorBits_raise .bus 0#8 (k.setWidth 8) s

theorem writeReg_errors_of_ne_status {r : Reg} (h : r ≠ .status) (d : Word) (s : State) :
    (writeReg r d s).errors = s.errors := by
  cases r
  case status => exact absurd rfl h
  all_goals rfl

/-- No command clears an error bit. -/
theorem exec_keepsErrorBits {i : Instr} {s t : State} (h : exec i s = .next t) : KeepsErrorBits s t := by
  cases exec_cases h with
  | abort x _ e => subst e; exact keepsErrorBits_raise x i.opcode 0#8 s
  | result ov v _ _ _ e => subst e; exact keepsErrorBits_flagOv i ov s
  | nop _ e | clear _ e | plot _ _ _ _ e | commit _ e | start _ _ _ e | frame _ _ e =>
    subst e
    exact keepsErrorBits_of_errors_eq (by simp [plotPixel, startSequence])

/-- A bit that a STATUS write clears was written as 1 (R114). -/
theorem written_of_clearWritten {e : Byte} {d : Word} {k : Nat} (h1 : e.getLsbD k = true)
    (h0 : (clearWritten e d).getLsbD k = false) : d.getLsbD (8 + k) = true := by
  have hk : k < 8 := BitVec.lt_of_getLsbD h1
  simpa [clearWritten, h1, hk] using h0

/-- Settles O50, by the cases of a step: all but reset and a write to STATUS keep the error bits. -/
theorem errorBitsAreSticky : Obligations.ErrorBitsAreSticky := by
  intro s t k h h1 h0
  have hlost : ¬ KeepsErrorBits s t := fun hkeep => by simp [hkeep k h1] at h0
  cases step_cases h with
  | reset ht _ => exact .inl ht
  | write a w d rest ht hh hs hl hr e =>
    subst e
    by_cases hst : regAt a = .status
    · obtain ⟨ha, rfl⟩ := offset_of_regAt hl
      rw [hst] at ha h0
      subst ha
      exact .inr ⟨ht, hh, d, rest, hs, written_of_clearWritten h1 h0⟩
    · have hkeep := writeReg_errors_of_ne_status hst d { takeTurn s with host := rest }
      exact (hlost (keepsErrorBits_of_errors_eq hkeep)).elim
  | idle _ e | scan _ _ _ _ _ e | poll _ _ _ _ e | hold _ _ _ _ _ _ _ _ _ _ e =>
    subst e
    exact (hlost (keepsErrorBits_of_errors_eq rfl)).elim
  | tick _ e => subst e; exact (hlost (keepsErrorBits_of_errors_eq (by simp))).elim
  | read a w rest _ _ _ e =>
    subst e
    exact (hlost (keepsErrorBits_hostRead a w { takeTurn s with host := rest })).elim
  | badWrite a _ _ rest _ _ _ _ e =>
    subst e
    exact (hlost (keepsErrorBits_raise .bus 0#8 (a.setWidth 8) { takeTurn s with host := rest })).elim
  | command _ _ _ _ _ _ _ _ e =>
    have hkeep := exec_keepsErrorBits e
    exact (hlost hkeep).elim
  | illegal d _ hd _ _ held host e =>
    rw [illegalCommand_eq hd] at e
    subst e
    exact (hlost (keepsErrorBits_raise .ill (opcodeField d) 0#8 { takeTurn s with held := held, host := host })).elim

/-! RES -/

/-- The command answers a result at s: it is an arithmetic one, and no DIV by zero (R23). -/
def AnswersResult (i : Instr) (s : State) : Prop :=
  i ∈ [Instr.scaleup, .scaledn, .mul, .sin, .cos, .sqrt, .dist] ∨ (i = .div ∧ s.opb ≠ 0#32)

/-- A command that answers a result leaves a sign-extended half in RES (R76), and no other changes RES. -/
theorem exec_res {i : Instr} {s t : State} (h : exec i s = .next t) :
    (AnswersResult i s ∧ ∃ v : Half, t.res = v.signExtend 32) ∨ (¬ AnswersResult i s ∧ t.res = s.res) := by
  cases exec_cases h with
  | result ov v hi _ hv e => subst e; exact .inl ⟨hi, _, by rw [setResult_res, ofInt_of_narrow hv]⟩
  | abort x hx e =>
    subst e
    refine .inr ⟨?_, rfl⟩
    rcases hx with ⟨-, rfl, hz⟩ | ⟨-, rfl⟩ | ⟨-, rfl, -⟩ | ⟨-, rfl, -⟩ | ⟨-, rfl, -⟩ <;> simp [AnswersResult, *]
  | nop hi e | clear hi e | plot hi _ _ _ e | commit hi e | start hi _ _ e | frame hi _ e =>
    subst hi e
    exact .inr (by simp [AnswersResult, plotPixel, startSequence])

/-- Settles O51: a command that answers no result leaves RES, and one that answers a result leaves a narrow one. -/
theorem onlyArithmeticWritesResult : Obligations.OnlyArithmeticWritesResult := by
  intro i s t h
  rcases exec_res h with ⟨ha, hv⟩ | ⟨ha, hres⟩
  · refine ⟨fun hn => absurd ha ?_, fun hi hz => absurd ha ?_, fun _ => hv⟩
    · simp only [AnswersResult, List.mem_cons, not_or] at hn ⊢
      tauto
    · simp [AnswersResult, hi, hz]
  · exact ⟨fun _ => hres, fun _ _ => hres, fun hi => absurd hi ha⟩

/-! RUN -/

/-- The decoder answers a command for its encoding alone (R69). -/
theorem eq_encode_of_decode {w : Word} {i : Instr} (h : decode w = .ok i) : w = encode i := by
  unfold decode at h
  split at h
  · next hr =>
    split at h
    · next j hj =>
      cases h
      rw [word_eq_of_reservedField hr, (instrOfOpcode_eq_some_iff _ _).1 hj, encode]
    · cases h
  · cases h

@[simp] theorem hostRead_run (k : BitVec 6) (w : Width) (s : State) : (hostRead k w s).run = s.run := by
  unfold hostRead
  split <;> rfl

@[simp] theorem writeReg_run (r : Reg) (d : Word) (s : State) : (writeReg r d s).run = s.run := by
  cases r <;> rfl

@[simp] theorem illegalCommand_run (x : DecodeError) (s : State) : (illegalCommand x s).run = s.run := by
  cases x <;> rfl

/-- Only RSTART and RNEXT change RUN (R26). -/
theorem exec_run_of_ne {i : Instr} {s t : State} (h : exec i s = .next t) (hrun : t.run ≠ s.run) :
    i = .rstart ∨ i = .rnext := by
  cases exec_cases h with
  | start hi _ _ _ => exact .inl hi
  | frame hi _ _ => exact .inr hi
  | nop _ e | abort _ _ e | result _ _ _ _ _ e | clear _ e | plot _ _ _ _ e | commit _ e =>
    subst e
    simp [plotPixel] at hrun

/-- Settles O52, by the cases of a step: only reset and a command change RUN, and the command's word is its encoding. -/
theorem onlySequencerChangesRun : Obligations.OnlySequencerChangesRun := by
  intro s t h hrun
  cases step_cases h with
  | reset ht _ => exact .inl ht
  | command d i hd ht hb src held host e =>
    refine .inr ⟨ht, hb, d, src.imp_right ?_, ?_⟩
    · rintro ⟨hh, k, w, rest, hs, hl, hr⟩
      obtain ⟨hk, rfl⟩ := offset_of_regAt hl
      rw [hr] at hk
      subst hk
      exact ⟨hh, rest, hs⟩
    · rw [eq_encode_of_decode hd]
      exact (exec_run_of_ne e hrun).imp (congrArg encode) (congrArg encode)
  | idle _ e | tick _ e | scan _ _ _ _ _ e | read _ _ _ _ _ _ e | poll _ _ _ _ e | badWrite _ _ _ _ _ _ _ _ e
  | write _ _ _ _ _ _ _ _ _ e | hold _ _ _ _ _ _ _ _ _ _ e | illegal _ _ _ _ _ _ _ e =>
    subst e
    simp [pollStep, busError] at hrun

/-! Direct mode -/

/-- The state with another content of OFF. -/
def replaceOff (m : Memory) (s : State) : State := { s with off := m }

section ReplaceOff

variable (m : Memory) (s : State)

@[simp] theorem replaceOff_build : (replaceOff m s).build = s.build := rfl
@[simp] theorem replaceOff_opa : (replaceOff m s).opa = s.opa := rfl
@[simp] theorem replaceOff_opb : (replaceOff m s).opb = s.opb := rfl
@[simp] theorem replaceOff_opc : (replaceOff m s).opc = s.opc := rfl
@[simp] theorem replaceOff_opd : (replaceOff m s).opd = s.opd := rfl
@[simp] theorem replaceOff_run : (replaceOff m s).run = s.run := rfl

@[simp] theorem abort_replaceOff (x : ErrorCode) (i : Instr) :
    abort x i (replaceOff m s) = replaceOff m (abort x i s) := rfl

@[simp] theorem setResult_replaceOff (v : Int) : setResult v (replaceOff m s) = replaceOff m (setResult v s) := rfl

@[simp] theorem flagOv_replaceOff (i : Instr) (ov : Bool) :
    flagOv i ov (replaceOff m s) = replaceOff m (flagOv i ov s) := by
  cases ov <;> rfl

@[simp] theorem finish_replaceOff (i : Instr) (ov : Bool) (v : Int) :
    finish i ov v (replaceOff m s) = replaceOff m (finish i ov v s) := by
  simp only [finish, flagOv_replaceOff, setResult_replaceOff]

@[simp] theorem startSequence_replaceOff : startSequence (replaceOff m s) = replaceOff m (startSequence s) := rfl

@[simp] theorem advance_replaceOff : advance (replaceOff m s) = replaceOff m (advance s) := by
  rw [advance, advance, apply_ite (replaceOff m)]
  rfl

@[simp] theorem startDelay_replaceOff : startDelay (replaceOff m s) = replaceOff m (startDelay s) := rfl

variable {s} (hd : s.build.doubleBuffer = false)
include hd

theorem target_replaceOff : target (replaceOff m s) = target s := by simp [target, hd, replaceOff]

theorem setTarget_replaceOff (n : Memory) : setTarget n (replaceOff m s) = replaceOff m (setTarget n s) := by
  simp [setTarget, hd, replaceOff]

theorem commitFrame_replaceOff : commitFrame (replaceOff m s) = replaceOff m (commitFrame s) := by
  simp [commitFrame, copyFrame, hd, replaceOff]

/-- In direct mode no command reads OFF: it answers the same with any other content there (R37, R53). -/
theorem exec_replaceOff {i : Instr} {t : State} (h : exec i s = .next t) :
    exec i (replaceOff m s) = .next (replaceOff m t) := by
  cases i <;> cases h
  case nop => rfl
  case scaleup | mul | sqrt | dist => exact congrArg _ (finish_replaceOff ..)
  case scaledn | sin => rfl
  case cos => simp [exec, execCos]
  case div => simp [exec, execDiv, apply_ite (replaceOff m)]
  case fbegin => simp [exec, execFbegin, target_replaceOff, setTarget_replaceOff, hd]
  case plot => simp [exec, execPlot, plotPixel, target_replaceOff, setTarget_replaceOff, hd, apply_ite (replaceOff m)]
  case fcommit => exact congrArg _ (commitFrame_replaceOff m hd)
  case rstart =>
    cases hrun : s.run with
    | true => simp [exec, execRstart, hrun]
    | false => by_cases h0 : narrowSigned s.opc = 0 <;> simp [exec, execRstart, hrun, h0]
  case rnext => simp [exec, execRnext, commitFrame_replaceOff, hd, apply_ite (replaceOff m)]

end ReplaceOff

/-- In direct mode a command leaves OFF, and all but FBEGIN and PLOT leave LIVE (R53, R100). -/
theorem exec_buffers_of_direct {i : Instr} {s t : State} (hd : s.build.doubleBuffer = false)
    (h : exec i s = .next t) : t.off = s.off ∧ (i ≠ .fbegin → i ≠ .plot → t.live = s.live) := by
  cases exec_cases h with
  | clear hi e => subst e; exact ⟨by simp [hd], fun hn => absurd hi hn⟩
  | plot hi _ _ _ e => subst e; exact ⟨by simp [plotPixel, hd], fun _ hn => absurd hi hn⟩
  | nop _ e | abort _ _ e | result _ _ _ _ _ e | commit _ e | start _ _ _ e | frame _ _ e =>
    subst e
    simp [hd, startSequence]

/-- Settles O54, by `exec_buffers_of_direct` and `exec_replaceOff`. -/
theorem directModeWritesLiveOnly : Obligations.DirectModeWritesLiveOnly := by
  intro i s t hd h
  obtain ⟨hoff, hlive⟩ := exec_buffers_of_direct hd h
  exact ⟨hoff, hlive, fun m => exec_replaceOff m hd h⟩

/-! COMMITS -/

/-- A command that completes a frame (R33): FCOMMIT, and RNEXT while a sequence runs. -/
def CompletesFrame (i : Instr) (s : State) : Prop := i = .fcommit ∨ (i = .rnext ∧ s.run = true)

theorem exec_commits {i : Instr} {s t : State} (h : exec i s = .next t) :
    (CompletesFrame i s ∧ t.commits = s.commits + 1#32) ∨ (¬ CompletesFrame i s ∧ t.commits = s.commits) := by
  cases exec_cases h with
  | commit hi e => subst e; exact .inl ⟨.inl hi, commitFrame_commits s⟩
  | frame hi hrun e => subst e; exact .inl ⟨.inr ⟨hi, hrun⟩, by simp⟩
  | abort x hx e =>
    subst e
    refine .inr ⟨?_, rfl⟩
    rcases hx with ⟨-, rfl, -⟩ | ⟨-, rfl⟩ | ⟨-, rfl, -⟩ | ⟨-, rfl, -⟩ | ⟨-, rfl, hrun⟩ <;> simp [CompletesFrame, *]
  | result _ _ hi _ _ e =>
    subst e
    refine .inr ⟨?_, by simp⟩
    rintro (rfl | ⟨rfl, -⟩) <;> simp at hi
  | nop hi e | clear hi e | plot hi _ _ _ e | start hi _ _ e =>
    subst hi e
    exact .inr (by simp [CompletesFrame, plotPixel, startSequence])

/-- Settles O55, by `exec_commits`. -/
theorem commitsCountsFrames : Obligations.CommitsCountsFrames := by
  intro i s t h
  rcases exec_commits h with ⟨hc, he⟩ | ⟨hc, he⟩
  · refine ⟨fun _ => by rw [he]; exact BitVec.toNat_add .., fun h1 h2 => absurd hc (not_or.2 ⟨h1, h2⟩)⟩
  · exact ⟨fun hi => absurd hi hc, fun _ _ => he⟩

/-! A placed command, the window, SCAN -/

/-- Settles O6: the placed write is the host's next access, nothing holds it back, and its turn is next. -/
theorem placedWordRunsNext : Obligations.PlacedWordRunsNext := by
  intro s w i hd
  have hw : BitVec.ofNat 32 (w.toNat % 2 ^ 32) = w := by
    rw [Nat.mod_eq_of_lt w.isLt, BitVec.ofNat_toNat, BitVec.setWidth_eq]
  rw [State.withFetchWord, hw]
  exact step_commandWrite rfl hd rfl rfl rfl

theorem windowOffset_eq_some_iff (g : Params) (addr : Nat) (k : BitVec 6) :
    windowOffset g addr = some k ↔ addr = g.base + k.toNat := by
  have hk := k.isLt
  unfold windowOffset
  split
  · rw [Option.some.injEq, BitVec.toNat_eq, BitVec.toNat_ofNat]
    omega
  · simp only [reduceCtorEq, false_iff]
    omega

theorem windowOffset_eq_none_iff (g : Params) (addr : Nat) :
    windowOffset g addr = none ↔ addr < g.base ∨ g.base + 0x40 ≤ addr := by
  unfold windowOffset
  split
  · simp only [reduceCtorEq, false_iff]
    omega
  · simp only [true_iff]
    omega

/-- Settles O35: the table of offsets is a computation, and the window is the 64 addresses from BASE on. -/
theorem windowHoldsSixteenRegisters : Obligations.WindowHoldsSixteenRegisters :=
  ⟨by decide, regAt_offset, fun g addr => ⟨windowOffset_eq_some_iff g addr, windowOffset_eq_none_iff g addr⟩⟩

/-- Settles O43: the turn is SCAN's, and whether the byte exists decides between its value and the fault. -/
theorem scanReadsLiveOnly : Obligations.ScanReadsLiveOnly := by
  intro s p r b ts
  have hstep : step { s with turns := .scan p r b :: ts } = scanStep p r b { s with turns := ts } := rfl
  have hcell := cellExists_iff s.build.toParams p r b
  rw [hstep, scanStep]
  constructor
  · rintro ⟨h1, h2, h3, h4⟩
    exact if_pos (hcell.2 ⟨⟨h1, h2⟩, h3, h4⟩)
  · intro h
    refine if_neg fun hc => ?_
    obtain ⟨⟨h1, h2⟩, h3, h4⟩ := hcell.1 hc
    omega

/-! Reset -/

/-- Right after reset every register but the CONFIG constants reads 0 (R43). -/
theorem readReg_afterReset (b : Build) (live : Memory) {r : Reg} (h0 : r ≠ .config0) (h1 : r ≠ .config1) :
    readReg r (State.afterReset b live) = 0#32 := by
  cases r
  case config0 => exact absurd rfl h0
  case config1 => exact absurd rfl h1
  case status => simp [readReg, statusWord, errBit, State.afterReset]
  all_goals rfl

/-- LIVE holds its initial content in every byte of the buffer (R38). -/
theorem readByte_initialLive (b : Build) (f : Nat → Byte) {a : Nat} (h : a < bufferSize b.toParams) :
    readByte (initialLive b f) a = f a := by
  rw [initialLive, readByte_tabulateFrom, if_pos (by omega)]

/-- Settles O45: the registers by `readReg_afterReset`, and LIVE because a byte that exists is inside the buffer. -/
theorem resetStateValues : Obligations.ResetStateValues :=
  ⟨fun _ h0 h1 => readReg_afterReset _ _ h0 h1, fun _ => rfl,
    fun _ _ _ h => readByte_initialLive _ _ (cellIndex_lt h), rfl⟩

/-- The initial content of LIVE is in canonical form inside the buffer. -/
theorem initialLive_form (b : Build) (f : Nat → Byte) :
    (initialLive b f).wf ∧ (initialLive b f).within (bufferSize b.toParams) :=
  ⟨wf_tabulateFrom f _ 0, by simpa [initialLive] using within_tabulateFrom f (bufferSize b.toParams) 0⟩

/-- Settles O46, by `inv_afterReset` and the form of the initial content of LIVE. -/
theorem invariantHoldsAtReset : Obligations.InvariantHoldsAtReset :=
  have ⟨hw, hi⟩ := initialLive_form Config.build Config.liveInit
  inv_afterReset hw hi

end Sys2Proof.Machine
end

section
/-! Proofs of the statements on the memory and the bus: PLOT seen as pixels of the planes, illegal accesses, a held CMD
write and its delay, LIVE under double buffering, and LIVE's addresses. -/

namespace Sys2Proof.Machine

/-! PLOT seen as pixels -/

@[simp] theorem target_setTarget (m : Memory) (s : State) : target (setTarget m s) = m := by
  unfold target
  rw [setTarget_build, setTarget_off, setTarget_live]
  split <;> rfl

theorem wf_target {s : State} (ho : s.off.wf) (hl : s.live.wf) : (target s).wf := by
  unfold target
  split
  · exact ho
  · exact hl

/-- A PLOT whose operands are in range marks the pixel (R102). -/
theorem exec_plot_of_inRange {s : State} (hc : narrowUnsigned s.opa < s.build.numCols)
    (hr : narrowUnsigned s.opb < s.build.numRows) (h1 : 1 ≤ narrowUnsigned s.opc)
    (hl : narrowUnsigned s.opc ≤ s.build.numPlanes) :
    exec .plot s =
      .next (plotPixel (narrowUnsigned s.opa) (narrowUnsigned s.opb) (narrowUnsigned s.opc) s) := by
  simp [exec, execPlot, coordOk, levelOk, hc, hr, h1, hl]

/-- The marked pixel's own bit shows whether the plane is up to the level. -/
theorem markByte_and_mask (p l : Nat) {m : Byte} (hm : m ≠ 0#8) (old : Byte) :
    markByte p l m old &&& m ≠ 0#8 ↔ p ≤ l := by
  unfold markByte
  split
  · next h =>
    have hset : (old ||| m) &&& m = m := by ext k hk; simpa using Or.inr
    simp [hset, hm, h]
  · next h =>
    have hclear : old &&& ~~~m &&& m = 0#8 := by ext k hk; simp
    simp [hclear, h]

/-- Marking a pixel leaves the bit of a pixel whose mask shares none with its own. -/
theorem markByte_and_disjoint (p l : Nat) {m m' : Byte} (h : m &&& m' = 0#8) (old : Byte) :
    markByte p l m old &&& m' = old &&& m' := by
  ext k hk
  have hbit : (m[k] && m'[k]) = false := by rw [← BitVec.getElem_and, h, BitVec.getElem_zero]
  unfold markByte
  cases hm : m[k] with
  | false => split <;> simp [hm]
  | true =>
    rw [hm, Bool.true_and] at hbit
    simp [hbit]

section Pixels

variable {b : Build} {mem : Memory} {p c r : Nat} (l : Nat) (hmem : mem.wf) (hc : c < b.numCols) (hr : r < b.numRows)
  (hp : 1 ≤ p) (hpn : p ≤ b.numPlanes)
include hmem hc hr hp hpn

/-- PLOT lights its own pixel in the planes up to the level (R102, R109). -/
theorem pixelLit_markPlanes_same :
    pixelLit b (markPlanes b.toParams r (c / 8) l (pixelMaskAt b (c % 8)) b.numPlanes mem) p c r ↔ p ≤ l := by
  have hmask := (pixelMask_disjoint b (Nat.mod_lt c (by decide)) (Nat.mod_lt c (by decide))).1
  rw [pixelLit, readByte_markPlanes_plane hmem hr (column_byte_lt hc) hp hpn]
  exact markByte_and_mask p l hmask _

/-- PLOT leaves every other pixel in every plane: it lies in another byte, or its mask is another. -/
theorem pixelLit_markPlanes_other {c' r' : Nat} (hc' : c' < b.numCols) (hr' : r' < b.numRows)
    (hne : c' ≠ c ∨ r' ≠ r) :
    pixelLit b (markPlanes b.toParams r (c / 8) l (pixelMaskAt b (c % 8)) b.numPlanes mem) p c' r' ↔
      pixelLit b mem p c' r' := by
  unfold pixelLit
  by_cases hsame : r' = r ∧ c' / 8 = c / 8
  · obtain ⟨rfl, hbyte⟩ := hsame
    have hmod : c % 8 ≠ c' % 8 := by omega
    have hmask := (pixelMask_disjoint b (Nat.mod_lt c (by decide)) (Nat.mod_lt c' (by decide))).2 hmod
    rw [hbyte, readByte_markPlanes_plane hmem hr (column_byte_lt hc) hp hpn, markByte_and_disjoint p l hmask]
  · rw [readByte_markPlanes_other hmem]
    intro q hq _ heq
    obtain ⟨-, hrow, hbyte⟩ := cellIndex_inj hp hq hr' hr (column_byte_lt hc') (column_byte_lt hc) heq
    exact hsame ⟨hrow, hbyte⟩

end Pixels

/-- Settles O27: TGT after PLOT is the marked buffer, in which its own pixel and every other one are known. -/
theorem plotEncodesLevelInPlanes : Obligations.PlotEncodesLevelInPlanes := by
  intro s ho hl hc hr h1 hn
  have htgt := wf_target ho hl
  refine ⟨_, exec_plot_of_inRange hc hr h1 hn, fun p c r hp hpn hc' hr' => ?_⟩
  rw [plotPixel, target_setTarget]
  constructor
  · rintro ⟨rfl, rfl⟩
    exact pixelLit_markPlanes_same _ htgt hc hr hp hpn
  · exact pixelLit_markPlanes_other _ htgt hc hr hp hpn hc' hr'

/-! Illegal accesses -/

theorem accessLegal_eq_false {k : BitVec 6} {width : Width} (h : width ≠ .word ∨ k.toNat % 4 ≠ 0) :
    accessLegal k width = false := by
  cases width with
  | word => simpa [accessLegal] using h
  | byte | half => rfl

/-- ERRINFO as the number offset, code, opcode (R30). -/
theorem errinfoOf_eq_ofNat (f c o : Byte) :
    errinfoOf f c o = BitVec.ofNat 24 (f.toNat * 65536 + c.toNat * 256 + o.toNat) := by
  have hf := f.isLt
  have hc := c.isLt
  have ho := o.isLt
  apply BitVec.eq_of_toNat_eq
  rw [errinfoOf, BitVec.toNat_append, BitVec.toNat_append, ← Nat.shiftLeft_add_eq_or_of_lt hc,
    ← Nat.shiftLeft_add_eq_or_of_lt ho, BitVec.toNat_ofNat, Nat.shiftLeft_eq, Nat.shiftLeft_eq]
  omega

/-- E_BUS as the whole next state (R46, R121). -/
theorem busError_eq (k : BitVec 6) (s : State) :
    busError k s = { s with
      errors := s.errors ||| 0x80#8, errinfo := BitVec.ofNat 24 (k.toNat * 65536 + 0x0F00) } := by
  have hinfo : errinfoOf (k.setWidth 8) ErrorCode.bus.code 0x00#8 = BitVec.ofNat 24 (k.toNat * 65536 + 0x0F00) := by
    have hk : (k.setWidth 8).toNat = k.toNat := BitVec.toNat_setWidth_of_le (by decide)
    rw [errinfoOf_eq_ofNat, hk, Nat.add_assoc]
    rfl
  rw [busError, raise, hinfo, ErrorCode.mask]

/-- Settles O40: the turn is the host's, no write is held, and the access is not legal. -/
theorem illegalAccessRaisesEBus : Obligations.IllegalAccessRaisesEBus := by
  intro s k width w ops ts hh h
  have hl := accessLegal_eq_false h
  constructor
  · simp [step, agentStep, nextTurn, hostStep, hostWrite, takeTurn, hh, hl, busError_eq]
  · simp [step, agentStep, nextTurn, hostStep, hostRead, takeTurn, hh, hl, busError_eq]

/-! A CMD write that is held -/

/-- A CMD write that the host issues while BUSY = 1 is held (R113). -/
theorem step_commandWrite_of_busy {s : State} {w : Word} {rest : List HostOp} (ht : nextTurn s = .host)
    (hb : s.busy = true) (hh : s.held = none) (hs : s.host = .write 0x00#6 .word w :: rest) :
    step s = .next { takeTurn s with host := rest, held := some w } := by
  have hlegal : accessLegal 0x00#6 .word = true := accessLegal_offset .cmd
  have hcmd : regAt 0x00#6 = .cmd := regAt_offset .cmd
  simp [step, agentStep, ht, hostStep, hh, hs, hostWrite, hlegal, hcmd, commandWrite, hb]

/-- The host has no step for a held write while BUSY = 1 (R113). -/
theorem step_held_of_busy {s : State} {w : Word} (ht : nextTurn s = .host) (hb : s.busy = true)
    (hh : s.held = some w) : step s = .next (takeTurn s) := by
  simp [step, agentStep, ht, hostStep, hh, hb]

/-- Settles O41: the first CMD write is held, and the host then has no step. -/
theorem commandWriteIsHeldWhileBusy : Obligations.CommandWriteIsHeldWhileBusy := by
  intro s w ops ts hb
  exact ⟨fun hh => step_commandWrite_of_busy rfl hb hh rfl, step_held_of_busy rfl hb rfl⟩

/-- With no turn listed, the next turn takes nothing. -/
theorem takeTurn_of_unlisted {s : State} (ht : s.turns = []) : takeTurn s = s := by
  rw [takeTurn, ht, List.tail_nil, ← ht]

/-- With no turn listed, a millisecond passes while the host's write is held by BUSY. -/
theorem step_held_tick {s : State} {w : Word} (ht : s.turns = []) (hh : s.held = some w) (hb : s.busy = true) :
    step s = .next (tickStep s) := by
  have hturn : nextTurn s = .tick := by simp [nextTurn, hostReady, ht, hh, hb]
  rw [step, hturn, takeTurn_of_unlisted ht, agentStep]

/-- With no turn listed, the host performs its held write once BUSY = 0. -/
theorem step_held_unlisted {s : State} {w : Word} {i : Instr} (ht : s.turns = []) (hh : s.held = some w)
    (hb : s.busy = false) (hd : decode w = .ok i) : step s = exec i { s with held := none } := by
  have hturn : nextTurn s = .host := by simp [nextTurn, hostReady, ht, hh, hb]
  simpa only [takeTurn_of_unlisted ht] using step_heldCommand hturn hd hb hh

/-- While a write is held and no turn is listed, the machine's run is the delay's TICK steps. -/
theorem run_held_eq_afterTicks {s : State} {w : Word} (ht : s.turns = []) (hh : s.held = some w)
    (hb : s.busy = true ↔ s.wcnt ≠ 0#16) {n : Nat} (hn : n ≤ s.wcnt.toNat) :
    Sys2Proof.core.run n s = .next (afterTicks n s) := by
  induction n generalizing s with
  | zero => rfl
  | succ n ih =>
    have hbusy : s.busy = true := by rw [hb, half_ne_zero_iff]; omega
    rw [run_succ_of_next (step_held_tick ht hh hbusy), afterTicks]
    exact ih (by simpa using ht) (by simpa using hh) (tickStep_busy_iff s hb) (by rw [tickStep_wcnt_toNat]; omega)

/-- TICK steps change WCNT and BUSY alone. -/
theorem afterTicks_frame (n : Nat) (s : State) :
    afterTicks n s = { s with wcnt := (afterTicks n s).wcnt, busy := (afterTicks n s).busy } := by
  induction n generalizing s with
  | zero => rfl
  | succ n ih =>
    rw [afterTicks, ih (tickStep s)]
    simp

/-- The delay ends with WCNT = 0 and BUSY = 0, and nothing else changed (R107). -/
theorem afterTicks_wcnt {s : State} (hb : s.busy = true ↔ s.wcnt ≠ 0#16) :
    afterTicks s.wcnt.toNat s = { s with wcnt := 0#16, busy := false } := by
  obtain ⟨hbusy, hwcnt⟩ := afterTicks_busy_wcnt s.wcnt.toNat hb
  have hzero : (afterTicks s.wcnt.toNat s).wcnt = 0#16 := BitVec.eq_of_toNat_eq (by simpa using hwcnt)
  have hidle : (afterTicks s.wcnt.toNat s).busy = false := by simpa [hzero] using hbusy
  rw [afterTicks_frame, hzero, hidle]

/-- A run of one step more ends with that step. -/
theorem run_succ_last (M : Host.Core) {n : Nat} {s t : M.State} (h : M.run n s = .next t) :
    M.run (n + 1) s = M.step t := by
  induction n generalizing s with
  | zero =>
    cases h
    rw [Host.Core.run]
    cases M.step t <;> rfl
  | succ n ih =>
    rw [Host.Core.run] at h ⊢
    split at h
    · next u hu => exact ih h
    · cases h
    · cases h

/-- Settles O42: the run is the delay's TICK steps, after which the held write is performed. -/
theorem heldCommandRunsAfterDelay : Obligations.HeldCommandRunsAfterDelay := by
  intro s w i hinv hh ht hd
  have hrun := run_held_eq_afterTicks ht hh hinv.busyWhileWaiting le_rfl
  rw [afterTicks_wcnt hinv.busyWhileWaiting] at hrun
  exact ⟨hrun, (run_succ_last Sys2Proof.core hrun).trans (step_held_unlisted ht hh rfl hd)⟩

/-! LIVE under double buffering -/

/-- t is s with a whole commit: COMMITS counts one, OFF stays, and LIVE is OFF's copy (R52). -/
structure Committed (s t : State) : Prop where
  commits : t.commits = s.commits + 1#32
  off : t.off = s.off
  live : t.live = copyBelow (bufferSize s.build.toParams) s.off s.live

/-- With double buffering a command leaves LIVE, or commits a whole frame (R52). -/
theorem exec_live_of_double {i : Instr} {s t : State} (hd : s.build.doubleBuffer = true) (h : exec i s = .next t) :
    t.live = s.live ∨ Committed s t := by
  cases exec_cases h with
  | commit _ e | frame _ _ e => subst e; right; constructor <;> simp [hd]
  | nop _ e | abort _ _ e | result _ _ _ _ _ e | clear _ e | plot _ _ _ _ e | start _ _ _ e =>
    subst e
    left
    simp [hd, plotPixel, startSequence]

@[simp] theorem hostRead_live (k : BitVec 6) (w : Width) (s : State) : (hostRead k w s).live = s.live := by
  unfold hostRead
  split <;> rfl

@[simp] theorem writeReg_live (r : Reg) (d : Word) (s : State) : (writeReg r d s).live = s.live := by
  cases r <;> rfl

@[simp] theorem illegalCommand_live (x : DecodeError) (s : State) : (illegalCommand x s).live = s.live := by
  cases x <;> rfl

/-- With double buffering a step leaves LIVE, or commits a whole frame: no agent but the host writes LIVE, and the
host does by a command alone. -/
theorem step_live_of_double {s t : State} (hd : s.build.doubleBuffer = true) (h : step s = .next t) :
    t.live = s.live ∨ Committed s t := by
  cases step_cases h with
  | command _ i _ _ _ _ held host e =>
    have hexec := exec_live_of_double (s := { takeTurn s with held := held, host := host }) hd e
    exact hexec.imp_right fun ⟨hc, ho, hl⟩ => ⟨hc, ho, hl⟩
  | idle _ e | scan _ _ _ _ _ e | reset _ e | poll _ _ _ _ e | badWrite _ _ _ _ _ _ _ _ e
  | hold _ _ _ _ _ _ _ _ _ _ e => subst e; exact .inl rfl
  | tick _ e | read _ _ _ _ _ _ e | write _ _ _ _ _ _ _ _ _ e | illegal _ _ _ _ _ _ _ e =>
    subst e
    left
    simp

/-- Settles O53, by `step_live_of_double`: the copy reaches every byte that exists. -/
theorem liveChangesOnlyByCommit : Obligations.LiveChangesOnlyByCommit := by
  intro s t hd h
  refine (step_live_of_double hd h).imp (fun hl a => by rw [hl]) ?_
  rintro ⟨hcommits, hoff, hlive⟩
  refine ⟨hcommits, hoff, fun p r b hcell => ?_⟩
  rw [hlive, readByte_copyBelow, if_pos (cellIndex_lt hcell)]

/-! LIVE's addresses -/

/-- Settles O57: a byte that exists lies inside LIVE, and LIVE lies apart from the window. -/
theorem liveLiesOutsideWindow : Obligations.LiveLiesOutsideWindow := by
  intro b p r c h
  have hcell := cellIndex_lt h
  rw [windowOffset_eq_none_iff, liveAddress]
  rcases build_live_apart b with hbelow | habove
  · left; omega
  · right; omega

end Sys2Proof.Machine
end

section
/-! Proofs of the statements on the encoding: the opcode map, decoding every word, the operand forms, a CMD write of a
word that is no command, and the poll with the delay it waits for. -/

namespace Sys2Proof.Machine

/-! Decoding -/

/-- A word decodes to a command exactly when its RSVD field is 0 and its OPCODE field selects that command. -/
theorem decode_eq_ok_iff_fields (w : Word) (i : Instr) :
    decode w = .ok i ↔ reservedField w = 0#24 ∧ opcodeField w = i.opcode := by
  rw [decode, ← instrOfOpcode_eq_some_iff]
  split
  · next hr => cases instrOfOpcode (opcodeField w) <;> simp [hr]
  · next hr => simp [hr]

/-- The two ways of R62 and R63 in which a word is no command. -/
theorem exists_decode_eq_error_iff_fields (w : Word) :
    (∃ e, decode w = .error e) ↔ reservedField w ≠ 0#24 ∨ instrOfOpcode (opcodeField w) = none := by
  rw [decode]
  split
  · next hr => cases instrOfOpcode (opcodeField w) <;> simp [hr]
  · next hr => simp [hr]

/-- The fields of a command's word (R60, R61). -/
theorem encode_fields (i : Instr) : reservedField (encode i) = 0#24 ∧ opcodeField (encode i) = i.opcode := by
  cases i <;> exact ⟨rfl, rfl⟩

theorem decode_eq_ok_iff (w : Word) (i : Instr) : decode w = .ok i ↔ w = encode i := by
  rw [decode_eq_ok_iff_fields]
  constructor
  · rintro ⟨hr, ho⟩
    rw [word_eq_of_reservedField hr, ho, encode]
  · rintro rfl
    exact encode_fields i

theorem exists_decode_eq_error_iff (w : Word) :
    (∃ e, decode w = .error e) ↔ w.toNat / 256 ≠ 0 ∨
      w.toNat % 256 ∉ [0x00, 0x01, 0x02, 0x03, 0x04, 0x05, 0x06, 0x07, 0x08, 0x10, 0x11, 0x12, 0x20, 0x21] := by
  rw [exists_decode_eq_error_iff_fields, Ne, reservedField_eq_zero_iff, instrOfOpcode_eq_none_iff, opcodeField_toNat]

/-- Settles O3: the fields of a word determine it, and the opcode map is read both ways. -/
theorem decodeIsTotalAndExact : Obligations.DecodeIsTotalAndExact :=
  fun w => ⟨decode_eq_ok_iff w, exists_decode_eq_error_iff w⟩

/-- Settles O2: the opcode map is a table of 14 rows, and each row is a computation. -/
theorem opcodeMapWords : Obligations.OpcodeMapWords := by
  unfold Obligations.OpcodeMapWords
  decide

/-! The operand forms -/

/-- Bits 15:0 of a register are its low half. -/
theorem lowHalf_append (hi lo : Half) : (hi ++ lo).extractLsb' 0 16 = lo := by
  rw [BitVec.extractLsb'_append_eq_of_add_le (by decide), BitVec.extractLsb'_eq_self]

/-- Settles O7: a narrow form reads the low half, and a wide form is the word. -/
theorem operandFormsReadTheirBits : Obligations.OperandFormsReadTheirBits := by
  intro hi lo x
  rw [narrowSigned, narrowUnsigned, lowHalf_append]
  exact ⟨rfl, rfl, rfl, rfl⟩

/-! A CMD write of an illegal word -/

/-- The ranges of R63 are the OPCODE values that are none of the 14. -/
theorem exists_decode_eq_error_of_ranges {w : Word} (h : w.toNat / 256 ≠ 0 ∨
    (0x09 ≤ w.toNat % 256 ∧ w.toNat % 256 ≤ 0x0F) ∨ (0x13 ≤ w.toNat % 256 ∧ w.toNat % 256 ≤ 0x1F) ∨
    0x22 ≤ w.toNat % 256) : ∃ e, decode w = .error e := by
  rw [exists_decode_eq_error_iff]
  simp only [List.mem_cons, List.not_mem_nil, or_false]
  omega

/-- E_ILL as the whole next state (R62, R63, R121). -/
theorem performCommand_of_error {w : Word} {e : DecodeError} (h : decode w = .error e) (s : State) :
    performCommand w s = .next { s with
      errors := s.errors ||| 0x01#8, errinfo := BitVec.ofNat 24 (0x0800 + w.toNat % 256) } := by
  have hinfo : errinfoOf 0#8 ErrorCode.ill.code (opcodeField w) = BitVec.ofNat 24 (0x0800 + w.toNat % 256) := by
    rw [errinfoOf_eq_ofNat, opcodeField_toNat]
    rfl
  simp only [performCommand, h, illegalCommand_eq h, raise, hinfo, ErrorCode.mask]

/-- A CMD write that the host issues while BUSY = 0 is performed at once, whatever its word (R51). -/
theorem step_commandWrite_eq_performCommand {s : State} {w : Word} {rest : List HostOp} (ht : nextTurn s = .host)
    (hb : s.busy = false) (hh : s.held = none) (hs : s.host = .write 0x00#6 .word w :: rest) :
    step s = performCommand w { takeTurn s with host := rest } := by
  have hlegal : accessLegal 0x00#6 .word = true := accessLegal_offset .cmd
  have hcmd : regAt 0x00#6 = .cmd := regAt_offset .cmd
  simp [step, agentStep, ht, hostStep, hh, hs, hostWrite, hlegal, hcmd, commandWrite, hb]

/-- A held CMD write is performed once BUSY = 0, whatever its word (R113). -/
theorem step_held_eq_performCommand {s : State} {w : Word} (ht : nextTurn s = .host) (hb : s.busy = false)
    (hh : s.held = some w) : step s = performCommand w { takeTurn s with held := none } := by
  simp [step, agentStep, ht, hostStep, hh, hb]

/-- Settles O4: the word is performed whether it is issued or was held, and it decodes to no command. -/
theorem illegalCommandRaisesEIll : Obligations.IllegalCommandRaisesEIll := by
  intro s w ops ts hb hw
  obtain ⟨e, he⟩ := exists_decode_eq_error_of_ranges hw
  refine ⟨fun hh => ?issued, ?held⟩
  case issued =>
    have hstep := step_commandWrite_eq_performCommand
      (s := { s with host := .write 0x00#6 .word w :: ops, turns := .host :: ts }) rfl hb hh rfl
    exact hstep.trans (performCommand_of_error he _)
  case held =>
    have hstep := step_held_eq_performCommand
      (s := { s with held := some w, host := ops, turns := .host :: ts }) rfl hb rfl
    exact hstep.trans (performCommand_of_error he _)

/-! The poll -/

/-- Two fields of a word, one above the other, as a number. -/
theorem toNat_append_eq_add {m n : Nat} (x : BitVec m) (y : BitVec n) :
    (x ++ y).toNat = x.toNat * 2 ^ n + y.toNat := by
  rw [BitVec.toNat_append, ← Nat.shiftLeft_add_eq_or_of_lt y.isLt, Nat.shiftLeft_eq]

/-- STATUS as a number (R24, R25 to R28). -/
theorem statusWord_toNat (s : State) : (statusWord s).toNat = s.busy.toNat + 2 * s.run.toNat + 4 * s.rdone.toNat +
    (if s.errors = 0#8 then 0 else 8) + 256 * s.errors.toNat := by
  have herr : (errBit s).toNat * 8 = if s.errors = 0#8 then 0 else 8 := by
    by_cases h : s.errors = 0#8 <;> simp [errBit, h]
  rw [← herr]
  simp only [statusWord, toNat_append_eq_add, BitVec.toNat_ofBool, BitVec.toNat_ofNat]
  omega

theorem step_poll {s : State} {rest : List HostOp} (ht : nextTurn s = .host) (hh : s.held = none)
    (hs : s.host = .poll :: rest) : step s = .next (pollStep rest (takeTurn s)) := by
  simp [step, agentStep, ht, hostStep, hh, hs]

/-- With no turn listed, the host polls once BUSY = 0, and the poll ends. -/
theorem step_poll_unlisted {s : State} {rest : List HostOp} (ht : s.turns = []) (hh : s.held = none)
    (hs : s.host = .poll :: rest) (hb : s.busy = false) :
    step s = .next { s with readData := some (statusWord s), host := rest } := by
  have hturn : nextTurn s = .host := by simp [nextTurn, hostReady, ht, hh, hs, hb]
  rw [step_poll hturn hh hs, takeTurn_of_unlisted ht]
  simp [pollStep, hb]

/-- With no turn listed, a millisecond passes while the host can only wait. -/
theorem step_waiting_tick {s : State} (ht : s.turns = []) (hw : hostReady s = false) :
    step s = .next (tickStep s) := by
  have hturn : nextTurn s = .tick := by simp [nextTurn, ht, hw]
  rw [step, hturn, takeTurn_of_unlisted ht, agentStep]

/-- While the host can only wait for BUSY = 0 and no turn is listed, the machine's run is the delay's TICK steps. -/
theorem run_waiting_eq_afterTicks {s : State} (ht : s.turns = []) (hw : s.busy = true → hostReady s = false)
    (hb : s.busy = true ↔ s.wcnt ≠ 0#16) {n : Nat} (hn : n ≤ s.wcnt.toNat) :
    Sys2Proof.core.run n s = .next (afterTicks n s) := by
  induction n generalizing s with
  | zero => rfl
  | succ n ih =>
    have hbusy : s.busy = true := by rw [hb, half_ne_zero_iff]; omega
    have hready := hw hbusy
    rw [run_succ_of_next (step_waiting_tick ht hready), afterTicks]
    have hready' : (tickStep s).busy = true → hostReady (tickStep s) = false := by
      intro hbusy'
      simpa only [hostReady, tickStep_held, tickStep_host, hbusy, hbusy'] using hready
    exact ih (by simpa using ht) hready' (tickStep_busy_iff s hb) (by rw [tickStep_wcnt_toNat]; omega)

/-- While the host can only wait, the delay passes whole (R107). -/
theorem run_waiting_through_delay {s : State} (ht : s.turns = []) (hw : s.busy = true → hostReady s = false)
    (hb : s.busy = true ↔ s.wcnt ≠ 0#16) :
    Sys2Proof.core.run s.wcnt.toNat s = .next { s with wcnt := 0#16, busy := false } := by
  rw [run_waiting_eq_afterTicks ht hw hb le_rfl, afterTicks_wcnt hb]

/-- Settles O58: one read of the poll is the host's step, and the run from the invariant is the delay's TICK steps,
after which the poll reads BUSY = 0. -/
theorem pollEndsWhenIdle : Obligations.PollEndsWhenIdle := by
  intro s ops ts hh
  refine ⟨⟨statusWord s, ?_, statusWord_toNat s⟩, fun hinv => ?_⟩
  · exact step_poll rfl hh rfl
  · have hb := hinv.busyWhileWaiting
    have hwait : s.busy = true → hostReady { s with host := .poll :: ops, turns := [] } = false := by
      intro hbusy
      simp [hostReady, hh, hbusy]
    have hrun := run_waiting_through_delay (s := { s with host := .poll :: ops, turns := [] }) rfl hwait hb
    refine ⟨_, (run_succ_last Sys2Proof.core hrun).trans (step_poll_unlisted rfl hh rfl rfl), ?_⟩
    rw [statusWord_toNat]
    simp

end Sys2Proof.Machine
end

section
/-! Proofs of the statements on scale-up, scale-down, multiply and divide (R70 to R74). -/

namespace Sys2Proof.Machine

/-! How a command ends -/

/-- Recording an error sets its STATUS bit and writes ERRINFO (R120 to R122). -/
theorem recorded_raise (e : ErrorCode) (o f : Byte) (s : State) :
    Recorded e.code.toNat o.toNat f.toNat s (raise e o f s) :=
  ⟨by cases e <;> rfl, errinfoOf_eq_ofNat f e.code o⟩

theorem aborted_abort (e : ErrorCode) (i : Instr) (s : State) :
    Aborted e.code.toNat i.opcode.toNat 0 s (abort e i s) :=
  ⟨recorded_raise e i.opcode 0#8 s, rfl, arithFrame_abort e i s⟩

theorem noError_setResult_flagOv {ov : Bool} (h : ov = false) (v : Int) (i : Instr) (s : State) :
    NoError s (setResult v (flagOv i ov s)) := by
  subst h
  exact ⟨rfl, rfl⟩

theorem recorded_setResult_flagOv {ov : Bool} (h : ov = true) (v : Int) (i : Instr) (s : State) :
    Recorded 10 i.opcode.toNat 0 s (setResult v (flagOv i ov s)) := by
  subst h
  exact recorded_raise .ov i.opcode 0#8 s

/-- A command that ends with its overflow flag and a narrowed value changes RES and the error registers alone. -/
theorem arithFrame_finish (i : Instr) (ov : Bool) (v : Int) (s : State) : ArithFrame s (finish i ov v s) :=
  arithFrame_setResult_flagOv (narrow16 v) i ov s

theorem noError_finish_of_fits {v : Int} (h : -32768 ≤ v ∧ v ≤ 32767) (i : Instr) (s : State) :
    NoError s (finish i (!fits16 v) v s) :=
  noError_setResult_flagOv (by rw [(fits16_iff v).2 h]; rfl) _ i s

theorem recorded_finish_of_not_fits {v : Int} (h : v < -32768 ∨ 32767 < v) (i : Instr) (s : State) :
    Recorded 10 i.opcode.toNat 0 s (finish i (!fits16 v) v s) :=
  recorded_setResult_flagOv (by rw [(fits16_eq_false_iff v).2 h]; rfl) _ i s

/-! SCALEUP and SCALEDN -/

theorem scaleUp_low (n : Int) : scaleUp .low n = n * 32 := rfl

theorem scaleUp_normal (n : Int) : scaleUp .normal n = n * 256 := rfl

/-- Settles O8: SCALEUP ends with the flag of `n · FIX`, and FIX times a bound of R70 is a bound of the narrow range. -/
theorem scaleupScalesAndWraps : Obligations.ScaleupScalesAndWraps := by
  refine ⟨rfl, fun s => ⟨_, rfl, finish_res .., fun hp => ?_, fun hp => ?_, arithFrame_finish ..⟩⟩
  · rw [hp, scaleUp_low]
    exact ⟨fun h => noError_finish_of_fits (by omega) .scaleup s,
      fun h => recorded_finish_of_not_fits (by omega) .scaleup s⟩
  · rw [hp, scaleUp_normal]
    exact ⟨fun h => noError_finish_of_fits (by omega) .scaleup s,
      fun h => recorded_finish_of_not_fits (by omega) .scaleup s⟩

theorem le_fix (p : Prec) : 32 ≤ p.fix := by cases p <;> decide

/-- A narrow value over FIX is at most 32768 / 32 in size (R71). -/
theorem natAbs_tdiv_fix_le (p : Prec) {x : Int} (h : -32768 ≤ x ∧ x ≤ 32767) : (x.tdiv p.fix).natAbs ≤ 1024 := by
  have hx : x.natAbs ≤ 32768 := by omega
  rw [Int.natAbs_tdiv]
  exact Nat.div_le_div hx (le_fix p) (by decide)

/-- Settles O9: the quotient is `tdiv`, and SCALEDN writes it to RES with no flag. -/
theorem scalednTruncates : Obligations.ScalednTruncates := by
  refine ⟨rfl, fun s => ⟨_, (narrowSigned s.opa).tdiv s.build.prec.fix, rfl, ?_, ?_, rfl, ⟨rfl, rfl⟩, ?_⟩⟩
  · have hfix := le_fix s.build.prec
    exact truncatedQuotient_tdiv _ _ (by omega)
  · exact natAbs_tdiv_fix_le _ (narrowSigned_range _)
  · exact arithFrame_setResult_flagOv _ .scaledn false s

/-! MULW and MUL -/

/-- MULW in LOW lies in [0, 2^27): it is a 32-bit unsigned number over 32 (R72). -/
theorem mulw_low_range (a b : Int) : 0 ≤ mulw .low a b ∧ mulw .low a b < 2 ^ 27 := by
  simp only [mulw, u32]
  omega

/-- The term `k · 2^27` vanishes in the narrow value (R72). -/
theorem narrow16_add_wrap (q : Int) (c : Prop) [Decidable c] :
    narrow16 (q + (if c then 2 ^ 27 else 0)) = narrow16 q :=
  narrow16_congr (by split <;> omega)

/-- Settles O10, from LOW's form of MULW and the two roundings, which agree on a product that is not negative. -/
theorem wideMultiplyStep : Obligations.WideMultiplyStep := by
  intro a b
  have ha := half_toInt_range a
  have hb := half_toInt_range b
  have hlow := mulw_low_eq ha hb
  rw [← Int.fdiv_eq_ediv_of_nonneg (a.toInt * b.toInt) (by decide : (0 : Int) ≤ 32)] at hlow
  refine ⟨mulw_low_range _ _, hlow, ?_, truncatedQuotient_tdiv _ 256 (by decide), fun hn p => ?_⟩
  · rw [hlow, narrow16_add_wrap]
  · rw [mulw_of_nonneg ha hb hn p, Int.fdiv_eq_ediv_of_nonneg _ (Int.natCast_nonneg _),
      Int.tdiv_eq_ediv_of_nonneg hn]
    exact ⟨rfl, rfl⟩

/-- MUL in LOW rounds toward minus infinity (R73). -/
theorem flooredQuotient_mulQuotient (a b : Int) : FlooredQuotient (a * b) 32 (mulQuotient .low a b) :=
  flooredQuotient_fdiv _ _ (by decide)

/-- MUL in NORMAL rounds toward zero (R73). -/
theorem truncatedQuotient_mulQuotient (a b : Int) : TruncatedQuotient (a * b) 256 (mulQuotient .normal a b) :=
  truncatedQuotient_tdiv _ _ (by decide)

/-- Settles O11: MUL ends with the flag of its rounded quotient. -/
theorem mulRoundsByPolicy : Obligations.MulRoundsByPolicy := by
  refine ⟨rfl, fun s => ⟨_, mulQuotient s.build.prec (narrowSigned s.opa) (narrowSigned s.opb), rfl, fun hp => ?_,
    fun hp => ?_, finish_res .., fun h => noError_finish_of_fits h .mul s,
    fun h => recorded_finish_of_not_fits h .mul s, arithFrame_finish ..⟩⟩
  · rw [hp]; exact flooredQuotient_mulQuotient ..
  · rw [hp]; exact truncatedQuotient_mulQuotient ..

/-! DIV -/

theorem exec_div_of_zero {s : State} (h : s.opb = 0#32) : exec .div s = .next (abort .dz .div s) :=
  congrArg Host.Outcome.next (if_pos h)

theorem exec_div_of_ne_zero {s : State} (h : s.opb ≠ 0#32) : exec .div s =
    .next (finish .div (divide s.build.prec s.opa s.opb).1 (divide s.build.prec s.opa s.opb).2 s) :=
  congrArg Host.Outcome.next (if_neg h)

/-- A quotient of numbers, rounded down, is the floor quotient (R17). -/
theorem flooredQuotient_natCast (a : Nat) {d : Nat} (h : 0 < d) : FlooredQuotient a d (a / d : Nat) := by
  rw [Int.natCast_ediv]
  exact flooredQuotient_ediv _ _ (by omega)

/-- Settles O12: a zero divisor aborts, and otherwise DIV ends with the policy's flag and quotient. -/
theorem divByPolicy : Obligations.DivByPolicy := by
  refine ⟨rfl, fun s => ?_⟩
  by_cases hz : s.opb = 0#32
  · exact ⟨_, exec_div_of_zero hz, fun _ => aborted_abort .dz .div s, fun h => absurd hz h, fun h => absurd hz h⟩
  · obtain ⟨hnat, hint⟩ := word_ne_zero hz
    refine ⟨_, exec_div_of_ne_zero hz, fun h => absurd h hz, fun _ hp => ?_, fun _ hp => ?_⟩
    · rw [hp]
      obtain ⟨hq, hov⟩ := divide_low s.opa s.opb
      refine ⟨_, flooredQuotient_natCast _ hnat, ?_, fun h => ?_, fun h => ?_, arithFrame_finish ..⟩
      · rw [finish_res, hq]
      · exact noError_setResult_flagOv (by rw [← Bool.not_eq_true, hov]; omega) _ .div s
      · exact recorded_setResult_flagOv (hov.2 h) _ .div s
    · rw [hp]
      obtain ⟨hq, hov⟩ := divide_normal s.opa s.opb
      refine ⟨_, truncatedQuotient_tdiv _ _ hint, ?_, fun h => ?_, fun h => ?_, arithFrame_finish ..⟩
      · rw [finish_res, hq]
      · exact noError_setResult_flagOv (by rw [← Bool.not_eq_true, hov]; omega) _ .div s
      · exact recorded_setResult_flagOv (hov.2 h) _ .div s

end Sys2Proof.Machine
end

section
/-! Proofs of the statements on sine and cosine (R80 to R85). -/

namespace Sys2Proof.Machine

/-! The fold -/

theorem foldFull_lt {k : Nat} (h : k < 200) : foldFull k < 100 := by
  unfold foldFull
  split <;> omega

theorem foldHalf_lt {k : Nat} (h : k < 100) : foldHalf k < 50 := by
  unfold foldHalf
  split <;> omega

/-- Settles O13: a quantum is below 200, and each fold halves the range. -/
theorem foldedIndexInTable : Obligations.FoldedIndexInTable := by
  intro p x
  have hfull := foldFull_lt (quantum_lt p x)
  exact ⟨hfull, foldHalf_lt hfull⟩

/-! What SIN and COS answer -/

theorem exec_sin (s : State) : exec .sin s = .next (setResult (sincore s.build s.opa.toInt) s) := rfl

theorem exec_cos (s : State) : exec .cos s =
    .next (setResult (sincore s.build (s32 (s.opa.toInt + cosOffset s.build.prec)))
      (flagOv .cos (decide (s.opa.toInt + cosOffset s.build.prec ≥ 2 ^ 31)) s)) := rfl

/-- Settles O14: SINCORE is the form by quadrant, and SIN writes it to RES with no flag. -/
theorem sinLooksUpQuadrant : Obligations.SinLooksUpQuadrant := by
  refine ⟨rfl, fun s => ⟨_, exec_sin s, ?_, ⟨rfl, rfl⟩, ?_⟩⟩
  · rw [setResult_res, sincore_eq_sineByQuadrant]
  · exact arithFrame_setResult_flagOv _ .sin false s

theorem cosOffset_eq (p : Prec) : cosOffset p = if p = .low then 50 else 402 := by cases p <;> rfl

/-- A sum past the signed range, by less than 2^32, wraps once. -/
theorem s32_of_wraps {v : Int} (h1 : 2 ^ 31 ≤ v) (h2 : v < 2 ^ 31 + 2 ^ 32) : s32 v = v - 2 ^ 32 := by
  rw [s32, BitVec.toInt_ofInt, Int.bmod_def]
  split <;> omega

/-- Settles O15: COS_OFFSET is positive and small, so the sum fits below 2^31 and wraps once from there on. -/
theorem cosIsShiftedSine : Obligations.CosIsShiftedSine := by
  refine ⟨rfl, fun s => ⟨_, exec_cos s, fun a ha => ?_, arithFrame_setResult_flagOv ..⟩⟩
  rw [← cosOffset_eq] at ha
  have hoff : 0 ≤ cosOffset s.build.prec ∧ cosOffset s.build.prec ≤ 402 := by cases s.build.prec <;> decide
  have hlo : -2 ^ 31 ≤ s.opa.toInt := BitVec.le_toInt s.opa
  have hhi : s.opa.toInt < 2 ^ 31 := BitVec.toInt_lt
  rw [← ha, setResult_res]
  refine ⟨fun h => ⟨?_, ?_⟩, fun h => ⟨?_, ?_⟩⟩
  · rw [s32_of_fits (by omega) h, sincore_eq_sineByQuadrant]
  · exact noError_setResult_flagOv (decide_eq_false (by omega)) _ .cos s
  · rw [s32_of_wraps h (by omega), sincore_eq_sineByQuadrant]
  · exact recorded_setResult_flagOv (decide_eq_true h) _ .cos s

/-! The range -/

/-- RES holds a sine whole, because a sine is narrow, and so the range of a sine is the range of RES (R85). -/
theorem setResult_sincore_range (b : Build) (x : Int) (s : State) :
    -(b.prec.fix : Int) ≤ (setResult (sincore b x) s).res.toInt ∧
      (setResult (sincore b x) s).res.toInt ≤ b.prec.fix := by
  have hnarrow := sincore_narrow b x
  have hres : (setResult (sincore b x) s).res.toInt = sincore b x := s32_of_fits (by omega) (by omega)
  rw [hres]
  exact sincore_range b x

/-- Settles O16: both commands write a sine to RES. -/
theorem sineAndCosineStayInRange : Obligations.SineAndCosineStayInRange := by
  rintro s i (rfl | rfl)
  · exact ⟨_, exec_sin s, setResult_sincore_range ..⟩
  · exact ⟨_, exec_cos s, setResult_sincore_range ..⟩

/-! Odd symmetry -/

theorem sincore_zero (b : Build) : sincore b 0 = sinEntry b 0 := by
  simp [sincore_eq_sineByQuadrant, sineByQuadrant]

/-- Settles O17: the word's negation is the number's but at -2^31, and `sincore_neg` needs an angle that is not 0. -/
theorem sineIsOdd : Obligations.SineIsOdd := by
  refine fun s => ⟨_, _, exec_sin s, exec_sin _, fun hmin hzero => ?_, fun hzero => ?_⟩
  · have hneg : (-s.opa).toInt = -s.opa.toInt := BitVec.toInt_neg_of_ne_intMin hmin
    have hne : s.opa.toInt ≠ 0 := fun h => hzero (BitVec.toInt_inj.1 h)
    rw [setResult_res, setResult_res, hneg, sincore_neg _ _ hne, BitVec.ofInt_neg]
  · simp [hzero, sincore_zero]

/-! The period -/

/-- SINCORE reads an angle's quantum and sign alone (R80). -/
theorem sincore_congr (b : Build) {x y : Int} (hq : quantum b.prec x = quantum b.prec y) (hs : x < 0 ↔ y < 0) :
    sincore b x = sincore b y := by
  have hindex : foldedIndex b.prec x = foldedIndex b.prec y := by rw [foldedIndex, hq, foldedIndex]
  have hsign : foldedNegative b.prec x = foldedNegative b.prec y := by
    rw [foldedNegative, hq, decide_eq_decide.2 hs, foldedNegative]
  rw [sincore, sincore, hindex, hsign]

/-- An angle that is 200 quanta larger in size has the same quantum index. -/
theorem quantum_of_natAbs_add {p : Prec} {x y : Int} (h : x.natAbs = y.natAbs + 200 * sinDiv p) :
    quantum p x = quantum p y := by
  have hd : 0 < sinDiv p := by cases p <;> decide
  rw [quantum, h, Nat.add_mul_div_right _ _ hd]
  exact Nat.add_mod_right ..

/-- Settles O18: adding the period moves the size up on one side of zero and down on the other, and keeps the sign. -/
theorem sinePeriod : Obligations.SinePeriod := by
  refine fun b x => ⟨fun hx => ?_, fun hx => ?_, fun hp => ?_⟩
  · exact sincore_congr b (quantum_of_natAbs_add (by omega)) (by omega)
  · exact (sincore_congr b (quantum_of_natAbs_add (by omega)) (by omega)).symm
  · simp [sincore_eq_sineByQuadrant, sineByQuadrant, hp, sinDiv]

end Sys2Proof.Machine
end

section
/-! Proofs of the statements on the square root and the distance (R90 to R93). -/

namespace Sys2Proof.Machine

/-! The root unit -/

theorem sqrtIter_le (p : Prec) : sqrtIter p ≤ 20 := by cases p <;> decide

/-- Settles O20: the root gains one bit an iteration, and the remainder is at most twice the root. -/
theorem rootRegistersStayBounded : Obligations.RootRegistersStayBounded := by
  rintro p x n hn r rfl
  have hn20 : n ≤ 20 := hn.trans (sqrtIter_le p)
  obtain ⟨-, hrem, hroot, -⟩ := rootLoop_consumed x n hn20
  have hpow : 2 ^ n ≤ 2 ^ 20 := Nat.pow_le_pow_right (by decide) hn20
  omega

/-- TSQRT is the floor root of the part of the operand that its iterations consume, two bits each. -/
theorem floorRoot_tsqrt (p : Prec) (x : Word) : FloorRoot (x.toNat * 4 ^ sqrtIter p / 2 ^ 32) (tsqrt p x) := by
  obtain ⟨hsum, hrem, -, -⟩ := rootLoop_consumed x _ (sqrtIter_le p)
  exact floorRoot_of_remainder hsum hrem

/-- LOW's 18 iterations bring down the 32 bits of x and 4 zero bits (R91). -/
theorem floorRoot_tsqrt_low (x : Word) : FloorRoot (16 * x.toNat) (tsqrt .low x) := by
  have hscale : x.toNat * 4 ^ sqrtIter .low / 2 ^ 32 = 16 * x.toNat := by
    rw [show sqrtIter .low = 18 from rfl]; omega
  exact hscale ▸ floorRoot_tsqrt .low x

/-- NORMAL's 20 iterations bring down the 32 bits of x and 8 zero bits (R91). -/
theorem floorRoot_tsqrt_normal (x : Word) : FloorRoot (256 * x.toNat) (tsqrt .normal x) := by
  have hscale : x.toNat * 4 ^ sqrtIter .normal / 2 ^ 32 = 256 * x.toNat := by
    rw [show sqrtIter .normal = 20 from rfl]; omega
  exact hscale ▸ floorRoot_tsqrt .normal x

/-- Settles O19: the two policies' closed forms. -/
theorem rootClosedForm : Obligations.RootClosedForm :=
  fun x => ⟨floorRoot_tsqrt_low x, floorRoot_tsqrt_normal x⟩

/-! SQRT -/

theorem exec_sqrt (s : State) : exec .sqrt s =
    .next (finish .sqrt (decide (32767 < tsqrt s.build.prec s.opa)) (tsqrt s.build.prec s.opa) s) := rfl

/-- A root is past 32767 in LOW from 2^26 on, where 16 times the operand is 32768² (R92). -/
theorem tsqrt_low_overflows_iff (x : Word) : 32767 < tsqrt .low x ↔ 67108864 ≤ x.toNat := by
  have hroot := floorRoot_ge_iff (floorRoot_tsqrt_low x) 32768
  omega

/-- A root is past 32767 in NORMAL from 2^22 on, where 256 times the operand is 32768² (R92). -/
theorem tsqrt_normal_overflows_iff (x : Word) : 32767 < tsqrt .normal x ↔ 4194304 ≤ x.toNat := by
  have hroot := floorRoot_ge_iff (floorRoot_tsqrt_normal x) 32768
  omega

/-- Settles O21: SQRT ends with the root and its overflow flag, and the flag's bound is the policy's. -/
theorem sqrtIsFloorRoot : Obligations.SqrtIsFloorRoot := by
  refine ⟨rfl, fun s => ⟨_, _, exec_sqrt s, fun hp => ?_, fun hp => ?_, finish_res .., arithFrame_finish ..⟩⟩
  · rw [hp]
    have hov := tsqrt_low_overflows_iff s.opa
    exact ⟨floorRoot_tsqrt_low _, fun h => noError_setResult_flagOv (decide_eq_false (by omega)) _ .sqrt s,
      fun h => recorded_setResult_flagOv (decide_eq_true (hov.2 h)) _ .sqrt s⟩
  · rw [hp]
    have hov := tsqrt_normal_overflows_iff s.opa
    exact ⟨floorRoot_tsqrt_normal _, fun h => noError_setResult_flagOv (decide_eq_false (by omega)) _ .sqrt s,
      fun h => recorded_setResult_flagOv (decide_eq_true (hov.2 h)) _ .sqrt s⟩

/-! DIST -/

/-- The root that DIST answers before it is narrowed, from the exact differences (R93). -/
def distRoot (p : Prec) (dx dy : Int) : Nat :=
  tsqrt p (BitVec.ofInt 32 (sumOfSquares p (narrow16 dx) (narrow16 dy)))

/-- The overflow flag of DIST, from the exact differences (R93). -/
def distOverflows (p : Prec) (dx dy : Int) : Bool :=
  !fits16 dx || !fits16 dy || decide (32767 < distRoot p dx dy)

theorem exec_dist (s : State) {dx dy : Int} (hx : narrowSigned s.opa - narrowSigned s.opc = dx)
    (hy : narrowSigned s.opb - narrowSigned s.opd = dy) :
    exec .dist s = .next (finish .dist (distOverflows s.build.prec dx dy) (distRoot s.build.prec dx dy) s) := by
  subst hx hy
  rfl

theorem distOverflows_iff (p : Prec) (dx dy : Int) : distOverflows p dx dy = true ↔
    (dx < -32768 ∨ 32767 < dx) ∨ (dy < -32768 ∨ 32767 < dy) ∨ 32767 < distRoot p dx dy := by
  simp only [distOverflows, Bool.or_eq_true, Bool.not_eq_true', fits16_eq_false_iff, decide_eq_true_eq, or_assoc]

/-- Settles O22: the wide sum does not wrap, so DIST's root is the closed form of TSQRT at that sum. -/
theorem distIsRootOfWideSum : Obligations.DistIsRootOfWideSum := by
  refine ⟨rfl, fun s => ?_⟩
  generalize hx : narrowSigned s.opa - narrowSigned s.opc = dx
  generalize hy : narrowSigned s.opb - narrowSigned s.opd = dy
  obtain ⟨hsum, hle⟩ := sumOfSquares_toNat s.build.prec (narrow16_range dx) (narrow16_range dy)
  have hov := distOverflows_iff s.build.prec dx dy
  refine ⟨_, dx, dy, _, distRoot s.build.prec dx dy, exec_dist s hx hy, rfl, rfl, rfl, hle, fun hp => ?_, fun hp => ?_,
    finish_res .., fun h => ?_, fun h => ?_, arithFrame_finish ..⟩
  · rw [← hsum, hp]
    exact floorRoot_tsqrt_low _
  · rw [← hsum, hp]
    exact floorRoot_tsqrt_normal _
  · exact noError_setResult_flagOv (by rw [← Bool.not_eq_true, hov]; omega) _ .dist s
  · exact recorded_setResult_flagOv (hov.2 h) _ .dist s

/-! The order of DIST's points -/

/-- Narrowing a negated value negates it, but for -32768, which stays. -/
theorem narrow16_neg (v : Int) :
    narrow16 (-v) = -narrow16 v ∨ (narrow16 v = -32768 ∧ narrow16 (-v) = -32768) := by
  simp only [narrow16, BitVec.toInt_ofInt, Int.bmod_def]
  omega

/-- The scaled square of a narrowed difference does not depend on the difference's sign. -/
theorem mulw_narrow16_neg (p : Prec) (v : Int) :
    mulw p (narrow16 (-v)) (narrow16 (-v)) = mulw p (narrow16 v) (narrow16 v) := by
  have hsquare : narrow16 (-v) * narrow16 (-v) = narrow16 v * narrow16 v := by
    rcases narrow16_neg v with h | ⟨h, h'⟩
    · rw [h, neg_mul_neg]
    · rw [h, h']
  rw [(mulw_self p _ (narrow16_range _)).1, hsquare, (mulw_self p _ (narrow16_range _)).1]

theorem distRoot_neg (p : Prec) (dx dy : Int) : distRoot p (-dx) (-dy) = distRoot p dx dy := by
  simp only [distRoot, sumOfSquares, mulw_narrow16_neg]

theorem fits16_neg {v : Int} (h : v.natAbs ≠ 32768) : fits16 (-v) = fits16 v := by
  rw [Bool.eq_iff_iff, fits16_iff, fits16_iff]
  omega

theorem distOverflows_neg (p : Prec) {dx dy : Int} (hx : dx.natAbs ≠ 32768) (hy : dy.natAbs ≠ 32768) :
    distOverflows p (-dx) (-dy) = distOverflows p dx dy := by
  simp only [distOverflows, fits16_neg hx, fits16_neg hy, distRoot_neg]

theorem tsqrt_zero (p : Prec) : tsqrt p 0#32 = 0 :=
  floorRoot_unique (floorRoot_tsqrt p 0#32) (by simp [FloorRoot])

theorem distRoot_zero (p : Prec) : distRoot p 0 0 = 0 := by
  have hsum : sumOfSquares p (narrow16 0) (narrow16 0) = 0 := by cases p <;> rfl
  rw [distRoot, hsum]
  exact tsqrt_zero p

theorem distOverflows_zero (p : Prec) : distOverflows p 0 0 = false := by
  rw [← Bool.not_eq_true, distOverflows_iff, distRoot_zero]
  omega

/-- Settles O23: exchanging the points negates both differences, which changes neither DIST's root nor, away from
±32768, its flag; a point and itself have differences 0. -/
theorem distIsSymmetric : Obligations.DistIsSymmetric := by
  intro s
  generalize hx : narrowSigned s.opa - narrowSigned s.opc = dx
  generalize hy : narrowSigned s.opb - narrowSigned s.opd = dy
  refine ⟨_, _, _, exec_dist s hx hy, exec_dist _ (dx := -dx) (dy := -dy) ?_ ?_,
    exec_dist _ (dx := 0) (dy := 0) ?_ ?_, ?_, ?_, ?_, fun hdx hdy => ?_⟩
  · rw [← hx, Int.neg_sub]
  · rw [← hy, Int.neg_sub]
  · exact Int.sub_self _
  · exact Int.sub_self _
  · rw [finish_res, finish_res, distRoot_neg]
  · rw [finish_res, distRoot_zero]
    rfl
  · exact noError_setResult_flagOv (distOverflows_zero _) _ .dist _
  · rw [distOverflows_neg _ hdx hdy]
    exact ⟨by simp only [finish_errors], by simp only [finish_errinfo]⟩

end Sys2Proof.Machine
end

section
/-! Proofs of the statements on the compositor and the frame sequencer (R101 to R107, R109). -/

namespace Sys2Proof.Machine

/-! FBEGIN and PLOT -/

/-- Writing TGT changes nothing but the frame buffers (R44). -/
theorem plotFrame_setTarget (m : Memory) (s : State) : PlotFrame s (setTarget m s) := by
  refine ⟨⟨?_, ?_, ?_, ?_⟩, ⟨?_, ?_, ?_, ?_, ?_, ?_, ?_, ?_⟩, ?_, ?_, ⟨?_, ?_⟩, ⟨?_, ?_, ?_, ?_, ?_, ?_⟩⟩ <;> simp

/-- With double buffering TGT is OFF, so writing it leaves LIVE (R100). -/
theorem setTarget_live_of_double {s : State} (hd : s.build.doubleBuffer = true) (m : Memory) :
    (setTarget m s).live = s.live := by
  rw [setTarget_live, if_pos hd]

/-- In direct mode TGT is LIVE, so writing it leaves OFF (R100). -/
theorem setTarget_off_of_direct {s : State} (hd : s.build.doubleBuffer = false) (m : Memory) :
    (setTarget m s).off = s.off := by
  rw [setTarget_off, if_neg (by simp [hd])]

theorem exec_fbegin (s : State) :
    exec .fbegin s = .next (setTarget (clearBelow (bufferSize s.build.toParams) (target s)) s) := rfl

/-- Settles O25: FBEGIN clears the places below TGT's size, and a byte that exists has its place there. -/
theorem fbeginClearsTarget : Obligations.FbeginClearsTarget := by
  refine ⟨rfl, fun s => ⟨_, exec_fbegin s, plotFrame_setTarget .., fun p r b hcell => ?_, fun a ha => ?_,
    fun hd a => ?_, fun hd a => ?_⟩⟩
  · rw [target_setTarget, readByte_clearBelow, if_pos (cellIndex_lt hcell)]
  · rw [target_setTarget, readByte_clearBelow, if_neg (by omega)]
  · rw [setTarget_live_of_double hd]
  · rw [setTarget_off_of_direct hd]

theorem exec_plot_of_coord {s : State}
    (h : s.build.numCols ≤ narrowUnsigned s.opa ∨ s.build.numRows ≤ narrowUnsigned s.opb) :
    exec .plot s = .next (abort .coord .plot s) := by
  have hcoord : coordOk s.build.toParams (narrowUnsigned s.opa) (narrowUnsigned s.opb) = false := by
    rw [coordOk, Bool.and_eq_false_iff, decide_eq_false_iff_not, decide_eq_false_iff_not]
    omega
  simp [exec, execPlot, hcoord]

theorem exec_plot_of_level {s : State} (hc : narrowUnsigned s.opa < s.build.numCols)
    (hr : narrowUnsigned s.opb < s.build.numRows)
    (h : narrowUnsigned s.opc < 1 ∨ s.build.numPlanes < narrowUnsigned s.opc) :
    exec .plot s = .next (abort .lvl .plot s) := by
  have hlevel : levelOk s.build.toParams (narrowUnsigned s.opc) = false := by
    rw [levelOk, Bool.and_eq_false_iff, decide_eq_false_iff_not, decide_eq_false_iff_not]
    omega
  simp [exec, execPlot, coordOk, hc, hr, hlevel]

theorem markByte_of_le {p l : Nat} (h : p ≤ l) (m old : Byte) : markByte p l m old = old ||| m := if_pos h

theorem markByte_of_lt {p l : Nat} (h : l < p) (m old : Byte) : markByte p l m old = old &&& ~~~m :=
  if_neg (Nat.not_le.2 h)

/-- A plotted pixel's byte in a plane of TGT is the marked byte (R102). -/
theorem readByte_target_plotPixel {s : State} (hw : (target s).wf) {c r p : Nat} (hc : c < s.build.numCols)
    (hr : r < s.build.numRows) (hp : 1 ≤ p) (hpn : p ≤ s.build.numPlanes) (l : Nat) :
    readByte (target (plotPixel c r l s)) (cellIndex s.build.toParams p r (c / 8)) =
      markByte p l (pixelMaskAt s.build (c % 8))
        (readByte (target s) (cellIndex s.build.toParams p r (c / 8))) := by
  rw [plotPixel, target_setTarget, readByte_markPlanes_plane hw hr (column_byte_lt hc) hp hpn]

/-- Settles O26: the operands are out of range in their column or row, or in their level, or TGT after PLOT is the
marked buffer. -/
theorem plotMarksEveryPlane : Obligations.PlotMarksEveryPlane := by
  refine ⟨rfl, fun s ho hl => ?_⟩
  by_cases hcoord : s.build.numCols ≤ narrowUnsigned s.opa ∨ s.build.numRows ≤ narrowUnsigned s.opb
  · exact ⟨_, exec_plot_of_coord hcoord, fun _ => aborted_abort .coord .plot s, by omega, by omega⟩
  obtain ⟨hc, hr⟩ : narrowUnsigned s.opa < s.build.numCols ∧ narrowUnsigned s.opb < s.build.numRows := by omega
  by_cases hlevel : narrowUnsigned s.opc < 1 ∨ s.build.numPlanes < narrowUnsigned s.opc
  · exact ⟨_, exec_plot_of_level hc hr hlevel, by omega, fun _ _ _ => aborted_abort .lvl .plot s, by omega⟩
  obtain ⟨h1, hn⟩ : 1 ≤ narrowUnsigned s.opc ∧ narrowUnsigned s.opc ≤ s.build.numPlanes := by omega
  have hw := wf_target ho hl
  refine ⟨_, exec_plot_of_inRange hc hr h1 hn, by omega, by omega, fun _ _ _ _ =>
    ⟨plotFrame_setTarget .., ?planes, fun a ha => ?others, fun hd a => ?live, fun hd a => ?off⟩⟩
  case planes =>
    rintro p hp hpn a rfl
    rw [readByte_target_plotPixel hw hc hr hp hpn]
    exact ⟨fun h => markByte_of_le h .., fun h => markByte_of_lt h ..⟩
  case others => rw [plotPixel, target_setTarget, readByte_markPlanes_other hw ha]
  case live => rw [plotPixel, setTarget_live_of_double hd]
  case off => rw [plotPixel, setTarget_off_of_direct hd]

/-! The commit of FCOMMIT and RNEXT -/

/-- With double buffering a commit makes LIVE's bytes OFF's (R52). -/
theorem readByte_commitFrame_live {s : State} (hd : s.build.doubleBuffer = true) {p r b : Nat}
    (hcell : cellExists s.build.toParams p r b = true) :
    readByte (commitFrame s).live (cellIndex s.build.toParams p r b) =
      readByte s.off (cellIndex s.build.toParams p r b) := by
  rw [commitFrame_live, if_pos hd, readByte_copyBelow, if_pos (cellIndex_lt hcell)]

/-- A commit copies nothing in direct mode, and nothing past the buffer (R100). -/
theorem readByte_commitFrame_live_kept {s : State} {a : Nat}
    (h : s.build.doubleBuffer = false ∨ bufferSize s.build.toParams ≤ a) :
    readByte (commitFrame s).live a = readByte s.live a := by
  rw [commitFrame_live]
  split
  · next hd => rw [readByte_copyBelow, if_neg (by simpa [hd] using h)]
  · rfl

/-- A commit counts in both buffer modes (R33). -/
theorem commitFrame_commits_toNat (s : State) :
    (commitFrame s).commits.toNat = (s.commits.toNat + 1) % 2 ^ 32 := by
  rw [commitFrame_commits, BitVec.toNat_add]
  rfl

theorem exec_fcommit (s : State) : exec .fcommit s = .next (commitFrame s) := rfl

/-- Settles O28: FCOMMIT is a commit, and the rest of the state is as before by the field lemmas. -/
theorem fcommitPublishesFrame : Obligations.FcommitPublishesFrame := by
  refine ⟨rfl, fun s => ?_⟩
  obtain ⟨hoperands, haround⟩ := exec_around (exec_fcommit s)
  refine ⟨_, exec_fcommit s, fun hd _ _ _ hcell => readByte_commitFrame_live hd hcell,
    fun _ h => readByte_commitFrame_live_kept h, fun a => by rw [commitFrame_off], commitFrame_commits_toNat s,
    commitFrame_res s, ⟨commitFrame_errors s, commitFrame_errinfo s⟩, hoperands, ?_, haround⟩
  constructor <;> simp

/-! RSTART -/

theorem inRange_iff (td tp t : Int) : inRange td tp t = true ↔ (0 < td ∧ t < tp) ∨ (td ≤ 0 ∧ tp < t) := by
  unfold inRange
  split <;> rw [decide_eq_true_eq] <;> omega

theorem exec_rstart_of_running {s : State} (hrun : s.run = true) :
    exec .rstart s = .next (abort .seq .rstart s) := congrArg Host.Outcome.next (if_pos hrun)

theorem exec_rstart_of_zero_step {s : State} (hrun : s.run = false) (h : narrowSigned s.opc = 0) :
    exec .rstart s = .next (abort .td0 .rstart s) := by
  simp [exec, execRstart, hrun, h]

theorem exec_rstart_of_accepted {s : State} (hrun : s.run = false) (h : narrowSigned s.opc ≠ 0) :
    exec .rstart s = .next (startSequence s) := by
  simp [exec, execRstart, hrun, h]

/-- A sequence runs from its start exactly when its first time is in range (R105). -/
theorem startSequence_run (s : State) :
    (startSequence s).run = inRange (narrowSigned s.opc) (narrowSigned s.opb) (narrowSigned s.opa) := rfl

theorem startSequence_rdone (s : State) : (startSequence s).rdone = !(startSequence s).run := rfl

/-- Settles O29: a sequence already runs, or the step is zero, or the sequence starts. -/
theorem rstartStartsSequence : Obligations.RstartStartsSequence := by
  refine ⟨rfl, fun s => ?_⟩
  cases hrun : s.run with
  | true => exact ⟨_, exec_rstart_of_running hrun, fun _ => aborted_abort .seq .rstart s, nofun, nofun⟩
  | false =>
    by_cases h0 : narrowSigned s.opc = 0
    · exact ⟨_, exec_rstart_of_zero_step hrun h0, nofun, fun _ _ => aborted_abort .td0 .rstart s,
        fun _ hne => absurd h0 hne⟩
    · obtain ⟨hoperands, haround⟩ := exec_around (exec_rstart_of_accepted hrun h0)
      refine ⟨_, exec_rstart_of_accepted hrun h0, nofun, fun _ h => absurd h h0, fun _ _ => ⟨rfl, rfl, rfl, rfl,
        fun h => ?_, fun h => ?_, rfl, rfl, rfl, rfl, ⟨rfl, rfl⟩, hoperands, ⟨fun _ => rfl, fun _ => rfl⟩, haround⟩⟩
      · have hmore : (startSequence s).run = true := by rw [startSequence_run, inRange_iff]; omega
        exact ⟨hmore, by rw [startSequence_rdone, hmore]; rfl⟩
      · have hempty : (startSequence s).run = false := by
          rw [startSequence_run, ← Bool.not_eq_true, inRange_iff]; omega
        exact ⟨hempty, by rw [startSequence_rdone, hempty]; rfl⟩

/-! RNEXT -/

theorem exec_rnext_of_idle {s : State} (hrun : s.run = false) : exec .rnext s = .next (abort .seq .rnext s) := by
  simp [exec, execRnext, hrun]

theorem exec_rnext_of_running {s : State} (hrun : s.run = true) :
    exec .rnext s = .next (startDelay (advance (commitFrame s))) := congrArg Host.Outcome.next (if_pos hrun)

/-- A commit leaves the time the sequence steps to. -/
@[simp] theorem nextTime_commitFrame (s : State) : nextTime (commitFrame s) = nextTime s := by
  rw [nextTime, commitFrame_t, commitFrame_tdelta, nextTime]

/-- While the exact sum is in range, RNEXT writes it to T whole, and the sequence goes on (R106). -/
theorem advance_commitFrame_of_inRange {s : State}
    (h : inRange s.tdelta.toInt s.tstop.toInt (nextTime s) = true) :
    (advance (commitFrame s)).t.toInt = nextTime s ∧ (advance (commitFrame s)).run = s.run ∧
      (advance (commitFrame s)).rdone = s.rdone := by
  simp [h, nextTime_narrow h]

/-- Once the exact sum is out of range, RNEXT keeps T and ends the sequence (R106). -/
theorem advance_commitFrame_of_not_inRange {s : State}
    (h : inRange s.tdelta.toInt s.tstop.toInt (nextTime s) = false) :
    (advance (commitFrame s)).t = s.t ∧ (advance (commitFrame s)).run = false ∧
      (advance (commitFrame s)).rdone = true := by
  simp [h]

/-- Settles O30: RNEXT is an error, or the commit, the step of the sequence and the start of the delay, in turn. -/
theorem rnextEndsTimeStep : Obligations.RnextEndsTimeStep := by
  refine ⟨rfl, fun s => ?_⟩
  cases hrun : s.run with
  | false => exact ⟨_, exec_rnext_of_idle hrun, fun _ => aborted_abort .seq .rnext s, nofun⟩
  | true =>
    obtain ⟨hoperands, haround⟩ := exec_around (exec_rnext_of_running hrun)
    refine ⟨_, exec_rnext_of_running hrun, nofun, fun _ => ⟨fun hd p r b hcell => ?copied, fun a ha => ?kept,
      fun a => ?off, ?commits, ?sequence, ?wcnt, ?busy, ?tstop, ?tdelta, ?delay, ?res, ?errors, hoperands, haround⟩⟩
    case copied => rw [startDelay_live, advance_live, readByte_commitFrame_live hd hcell]
    case kept => rw [startDelay_live, advance_live, readByte_commitFrame_live_kept ha]
    case commits => rw [startDelay_commits, advance_commits, commitFrame_commits_toNat]
    case sequence =>
      rintro tn rfl
      refine ⟨fun hin => ?_, fun hout => advance_commitFrame_of_not_inRange hout⟩
      obtain ⟨htime, hgoes, hdone⟩ := advance_commitFrame_of_inRange hin
      exact ⟨htime, hgoes.trans hrun, hdone⟩
    case errors => constructor <;> simp
    all_goals simp

/-! TICK -/

theorem step_tick (s : State) (ts : List Turn) :
    step { s with turns := .tick :: ts } = .next (tickStep { s with turns := ts }) := rfl

/-- Settles O31: the turn is TICK's, whose step is `tickStep`. -/
theorem tickCountsDelayDown : Obligations.TickCountsDelayDown := by
  intro s ts
  rw [step_tick]
  refine ⟨fun h => congrArg Host.Outcome.next (if_pos h), fun h => ⟨_, rfl, ?frame, ?wcnt, ?busy⟩⟩
  case frame => exact afterTicks_frame 1 { s with turns := ts }
  case wcnt =>
    have hpos := (half_ne_zero_iff s.wcnt).1 h
    rw [tickStep_wcnt_toNat]
    exact Nat.sub_add_cancel hpos
  case busy =>
    rw [tickStep_busy, tickStep_wcnt, if_neg h, if_neg h]
    split
    · next hlast => simp [hlast]
    · next hmore => simp [hmore]

/-! The frames of a sequence -/

/-- A sequence of narrow times has at most 65535 frames: the time of frame 65535 lies past every narrow TSTOP (R109). -/
theorem frameCount_le {ts tp td : Int} (hts : -32768 ≤ ts ∧ ts ≤ 32767) (htp : -32768 ≤ tp ∧ tp ≤ 32767)
    (h : td ≠ 0) : frameCount ts tp td ≤ 65535 := by
  have hlast := inRange_iff_lt_frameCount ts tp td h 65535
  rw [inRange_iff] at hlast
  by_contra hgt
  have := hlast.2 (by omega)
  omega

/-- What an RNEXT of a running sequence leaves once its delay is over. -/
def frameDone (s : State) : State := { startDelay (advance (commitFrame s)) with busy := false, wcnt := 0#16 }

theorem afterRnexts_succ_of_running {n : Nat} {s u : State} (h : afterRnexts n s = some u) (hrun : u.run = true) :
    afterRnexts (n + 1) s = some (frameDone u) := by
  induction n generalizing s with
  | zero =>
    cases h
    rw [afterRnexts, exec_rnext_of_running hrun]
    rfl
  | succ n ih =>
    rw [afterRnexts] at h ⊢
    split at h
    · next t ht => exact ih h
    · cases h

/-- u is the state in which frame i is due of a sequence from ts to tp by td, with COMMITS = c at its start. Past the
last frame the sequence has ended. -/
structure FrameDue (c : Nat) (ts tp td : Int) (i : Nat) (u : State) : Prop where
  tstop : u.tstop.toInt = tp
  tdelta : u.tdelta.toInt = td
  run : u.run = inRange td tp (ts + i * td)
  rdone : u.rdone = !u.run
  time : u.run = true → u.t.toInt = ts + i * td
  commits : u.commits.toNat = (c + i) % 2 ^ 32

theorem frameDue_startSequence (s : State) :
    FrameDue s.commits.toNat (narrowSigned s.opa) (narrowSigned s.opb) (narrowSigned s.opc) 0 (startSequence s) where
  tstop := rfl
  tdelta := rfl
  run := by rw [startSequence_run]; simp
  rdone := startSequence_rdone s
  time _ := by simp [startSequence, narrowSigned]
  commits := (Nat.mod_eq_of_lt s.commits.isLt).symm

/-- An RNEXT of a running sequence makes the next frame due (R106). -/
theorem FrameDue.succ {c : Nat} {ts tp td : Int} {i : Nat} {u : State} (h : FrameDue c ts tp td i u)
    (hrun : u.run = true) : FrameDue c ts tp td (i + 1) (frameDone u) := by
  have hnext : nextTime u = ts + (i + 1 : Nat) * td := by
    rw [nextTime, h.time hrun, h.tdelta]
    push_cast
    ring
  have hrange : inRange u.tdelta.toInt u.tstop.toInt (nextTime u) = inRange td tp (ts + (i + 1 : Nat) * td) := by
    rw [h.tdelta, h.tstop, hnext]
  have htstop : (frameDone u).tstop.toInt = tp := by simpa [frameDone] using h.tstop
  have htdelta : (frameDone u).tdelta.toInt = td := by simpa [frameDone] using h.tdelta
  have hcommits : (frameDone u).commits.toNat = (c + (i + 1)) % 2 ^ 32 := by
    rw [frameDone, startDelay_commits, advance_commits, commitFrame_commits_toNat, h.commits, Nat.mod_add_mod,
      Nat.add_assoc]
  cases hmore : inRange u.tdelta.toInt u.tstop.toInt (nextTime u) with
  | true =>
    obtain ⟨htime, hgoes, hdone⟩ := advance_commitFrame_of_inRange hmore
    have hrun' : (frameDone u).run = true := hgoes.trans hrun
    have hrdone' : (frameDone u).rdone = false := hdone.trans (by rw [h.rdone, hrun]; rfl)
    exact ⟨htstop, htdelta, by rw [hrun', ← hrange, hmore], by rw [hrdone', hrun']; rfl,
      fun _ => htime.trans hnext, hcommits⟩
  | false =>
    obtain ⟨-, hends, hdone⟩ := advance_commitFrame_of_not_inRange hmore
    have hrun' : (frameDone u).run = false := hends
    have hrdone' : (frameDone u).rdone = true := hdone
    exact ⟨htstop, htdelta, by rw [hrun', ← hrange, hmore], by rw [hrdone', hrun']; rfl,
      fun hgoes => absurd hgoes (by simp [hrun']), hcommits⟩

/-- After i RNEXTs, for i up to the frame count, frame i is due (R109). -/
theorem afterRnexts_frameDue {c : Nat} {ts tp td : Int} (htd : td ≠ 0) {s : State}
    (h : FrameDue c ts tp td 0 s) {i : Nat} (hi : i ≤ frameCount ts tp td) : ∃ u, afterRnexts i s = some u ∧ FrameDue c ts tp td i u := by
  induction i with
  | zero => exact ⟨s, rfl, h⟩
  | succ i ih =>
    obtain ⟨u, hu, hdue⟩ := ih (by omega)
    have hrun : u.run = true := hdue.run.trans ((inRange_iff_lt_frameCount ts tp td htd i).2 hi)
    exact ⟨_, afterRnexts_succ_of_running hu hrun, hdue.succ hrun⟩

/-- Settles O33, by `afterRnexts_frameDue`: the sequence runs at frame i exactly when i is below the frame count. -/
theorem sequencePerformsFrameCount : Obligations.SequencePerformsFrameCount := by
  intro s hrun htd
  have hframe := inRange_iff_lt_frameCount (narrowSigned s.opa) (narrowSigned s.opb) (narrowSigned s.opc) htd
  refine ⟨_, exec_rstart_of_accepted hrun htd, ?_⟩
  rintro n rfl
  refine ⟨frameCount_le (narrowSigned_range _) (narrowSigned_range _) htd, fun i hi => ?_, ?_⟩
  · obtain ⟨u, hu, hdue⟩ := afterRnexts_frameDue htd (frameDue_startSequence s) hi.le
    have hgoes : u.run = true := hdue.run.trans ((hframe i).2 hi)
    exact ⟨u, hu, hgoes, hdue.time hgoes, hdue.commits⟩
  · obtain ⟨u, hu, hdue⟩ := afterRnexts_frameDue htd (frameDue_startSequence s) le_rfl
    have hends : u.run = false := by
      rw [hdue.run, ← Bool.not_eq_true, hframe]
      exact lt_irrefl _
    exact ⟨u, hu, hends, by rw [hdue.rdone, hends]; rfl, hdue.commits⟩

end Sys2Proof.Machine
end

section
/-! Proofs of the statements on NOP and on the host's legal accesses other than a CMD write (R110 to R112, R114). -/

namespace Sys2Proof.Machine

/-! NOP -/

theorem exec_nop (s : State) : exec .nop s = .next s := rfl

/-- Settles O34: the word by evaluation, the state by `exec_nop`. -/
theorem nopChangesNothing : Obligations.NopChangesNothing :=
  ⟨by decide, fun s => ⟨s, exec_nop s, rfl⟩⟩

/-! A legal read -/

/-- What a register reads as depends neither on the turns nor on what the host still has to issue. -/
theorem readReg_of_agents (r : Reg) (s : State) (held : Option Word) (host : List HostOp) (turns : List Turn) :
    readReg r { s with held := held, host := host, turns := turns } = readReg r s := by cases r <;> rfl

/-- A 32-bit read at a register's offset, BUSY or not (R111). -/
theorem step_read {s : State} {r : Reg} {rest : List HostOp} (ht : nextTurn s = .host) (hh : s.held = none)
    (hs : s.host = .read r.offset .word :: rest) :
    step s = .next { takeTurn s with host := rest, readData := some (readReg r s) } := by
  simp [step, agentStep, ht, hostStep, hh, hs, hostRead, accessLegal_offset, regAt_offset, readReg_of_agents]

/-- Settles O36, by `step_read`: the narrower registers are widened by sign or by zeros, and the other words are
`readReg`'s own. -/
theorem hostReadReturnsRegister : Obligations.HostReadReturnsRegister := by
  intro s r ops ts hh
  have hstep := step_read (s := { s with host := .read r.offset .word :: ops, turns := .host :: ts }) rfl hh rfl
  refine ⟨_, hstep, ?cmd, ?status, ?opa, ?opb, ?opc, ?opd, ?res, ?t, ?tstop, ?tdelta, ?delay, ?wcnt, ?commits,
    ?errinfo, ?config0, ?config1⟩ <;> rintro rfl
  case status => exact statusWord_toNat _
  case t | tstop | tdelta => exact BitVec.toInt_signExtend_of_le (by decide)
  case delay | wcnt | errinfo => exact BitVec.toNat_setWidth_of_le (by decide)
  all_goals rfl

/-! A legal write to a register other than CMD -/

/-- A 32-bit write at a register's offset, BUSY or not (R112). -/
theorem step_writeReg {s : State} {r : Reg} {w : Word} {rest : List HostOp} (ht : nextTurn s = .host)
    (hh : s.held = none) (hr : r ≠ .cmd) (hs : s.host = .write r.offset .word w :: rest) :
    step s = .next (writeReg r w { takeTurn s with host := rest }) := by
  simp [step, agentStep, ht, hostStep, hh, hs, hostWrite, accessLegal_offset, regAt_offset, hr]

/-- Outside STATUS, a write reaches only the operand registers (R112). -/
theorem writeReg_eq_setOperand {r : Reg} (hr : r ≠ .status) (w : Word) (s : State) :
    writeReg r w s = { s with
      opa := if r = .opa then w else s.opa, opb := if r = .opb then w else s.opb,
      opc := if r = .opc then w else s.opc, opd := if r = .opd then w else s.opd } := by
  cases r
  case status => exact absurd rfl hr
  all_goals rfl

/-- Settles O38: the step is `writeReg`, which outside STATUS sets an operand register or nothing. -/
theorem hostWriteSetsOperandsOnly : Obligations.HostWriteSetsOperandsOnly := by
  intro s r w ops ts hh hcmd hstatus
  have hstep := step_writeReg (s := { s with host := .write r.offset .word w :: ops, turns := .host :: ts })
    rfl hh hcmd rfl
  exact hstep.trans (congrArg Host.Outcome.next (writeReg_eq_setOperand hstatus w _))

/-- The error bits that a STATUS write leaves (R114). -/
theorem clearWritten_getLsbD (e : Byte) (w : Word) {i : Nat} (hi : i < 8) :
    (clearWritten e w).getLsbD i = (e.getLsbD i && !w.getLsbD (8 + i)) := by
  simp [clearWritten, hi]

/-- Settles O39: the step is `writeStatus`, which keeps everything but the error bits. -/
theorem statusWriteClearsWrittenOnes : Obligations.StatusWriteClearsWrittenOnes := by
  intro s w ops ts hh
  have hstep := step_writeReg (r := .status)
    (s := { s with host := .write 0x04#6 .word w :: ops, turns := .host :: ts }) rfl hh (by decide) rfl
  exact ⟨_, hstep, rfl, fun i hi => clearWritten_getLsbD s.errors w hi⟩

end Sys2Proof.Machine
end

section
/-! Proof of the statement on which command records which error (R120 to R122). -/

namespace Sys2Proof.Machine

/-- R121's table of the errors of commands: the command records the error with this code. -/
def RecordsCode (i : Instr) (code : Nat) : Prop :=
  (code = 9 ∧ i = .div) ∨ (code = 10 ∧ i ∈ [Instr.scaleup, .mul, .div, .cos, .sqrt, .dist]) ∨
    (code = 11 ∧ i = .plot) ∨ (code = 12 ∧ i = .plot) ∨ (code = 13 ∧ i = .rstart) ∨
    (code = 14 ∧ (i = .rstart ∨ i = .rnext))

/-- What a command does to the error registers: it leaves them alone, or it records one error of its own row. -/
theorem exec_errors {i : Instr} {s t : State} (h : exec i s = .next t) :
    NoError s t ∨ ∃ code, RecordsCode i code ∧ Recorded code i.opcode.toNat 0 s t := by
  cases exec_cases h with
  | abort x hx e =>
    subst e
    have hrow : RecordsCode i x.code.toNat := by
      rcases hx with ⟨rfl, rfl, -⟩ | ⟨rfl | rfl, rfl⟩ | ⟨rfl, rfl, -⟩ | ⟨rfl, rfl, -⟩ | ⟨rfl, rfl, -⟩ <;>
        simp [RecordsCode, ErrorCode.code]
    exact .inr ⟨_, hrow, (aborted_abort x i s).recorded⟩
  | result ov v _ ho _ e =>
    subst e
    cases hov : ov with
    | false => exact .inl (noError_setResult_flagOv rfl v i s)
    | true => exact .inr ⟨10, .inr (.inl ⟨rfl, ho hov⟩), recorded_setResult_flagOv rfl v i s⟩
  | nop _ e | clear _ e | plot _ _ _ _ e | commit _ e | start _ _ _ e | frame _ _ e =>
    subst e
    exact .inl (by simp [NoError, plotPixel, startSequence])

/-- Settles O56, by `exec_errors`: `RecordsCode` is the table that the statement writes out. -/
theorem eachCommandRecordsItsOwnErrors : Obligations.EachCommandRecordsItsOwnErrors :=
  fun _ _ _ h => exec_errors h

end Sys2Proof.Machine
end

section
/-! Proof of the statement on the reset event (R140). -/

namespace Sys2Proof.Machine

/-- A turn of the reset input performs the reset event (R140). -/
theorem step_resetTurn (s : State) (ts : List Turn) :
    step { s with turns := .reset :: ts } = .next (resetEvent { s with turns := ts }) := rfl

/-- No register shows what the reset event takes over from the environment: each reads as right after reset. -/
theorem readReg_resetEvent (r : Reg) (s : State) :
    readReg r (resetEvent s) = readReg r (State.afterReset s.build s.live) := by
  cases r <;> rfl

/-- Settles O44: the step is `resetEvent`, whose registers read as `readReg_afterReset` says, and whose other fields the
model writes out. -/
theorem resetEventClearsAllButLive : Obligations.ResetEventClearsAllButLive := by
  intro s ts
  refine ⟨_, step_resetTurn s ts, ?registers, ?build, ?off, ?live, ?held⟩
  case registers =>
    intro r h0 h1
    rw [readReg_resetEvent]
    exact readReg_afterReset _ _ h0 h1
  case off => exact fun _ => rfl
  case live => exact fun _ => rfl
  all_goals rfl

end Sys2Proof.Machine
end
